-- ==== Sys2Proof/Word.lean ====
section
/-! DEFINITION. The two widths of the machine: bytes of the three address spaces and 16-bit words
(00_scope.md R10). What is computed on them is in Machine/Bits.lean. -/

namespace Sys2Proof

/-- A byte is 8 bits (R10). -/
abbrev Byte := BitVec 8

/-- A word is 16 bits: the width of a register and of an operand value (R8 `XLEN`, R10). -/
abbrev Word := BitVec 16

end Sys2Proof
end

