-- ==== Sys2Proof/Config.lean ====
section
/-! DEFINITION. The implementation parameters of 00_scope.md R8, and the free value of a draw.
A machine carries its parameters in `State.cfg`, so a statement about every state is a statement
about every value of them (R9). -/

namespace Sys2Proof

/-- The 25 mnemonics of 30_encoding.md R85, in the order of its table: the keys of the parameter
`OPC`. -/
inductive Mnemonic where
  | nop | sys | mov | add | sub | mul | div | cmp
  | jmp | jeq | jne | jlt | jgt | bra | beq | bne | blt | bgt | ret
  | alc | fre | stb | ldb | pix | cls
deriving DecidableEq, Repr

/-- The row of R85's table that a mnemonic stands in, counted from 0. -/
def Mnemonic.row : Mnemonic → Fin 25
  | .nop => 0 | .sys => 1 | .mov => 2 | .add => 3 | .sub => 4 | .mul => 5 | .div => 6 | .cmp => 7
  | .jmp => 8 | .jeq => 9 | .jne => 10 | .jlt => 11 | .jgt => 12
  | .bra => 13 | .beq => 14 | .bne => 15 | .blt => 16 | .bgt => 17 | .ret => 18
  | .alc => 19 | .fre => 20 | .stb => 21 | .ldb => 22 | .pix => 23 | .cls => 24

/-- Every mnemonic, in table order. -/
def Mnemonic.all : List Mnemonic :=
  [.nop, .sys, .mov, .add, .sub, .mul, .div, .cmp,
   .jmp, .jeq, .jne, .jlt, .jgt, .bra, .beq, .bne, .blt, .bgt, .ret,
   .alc, .fre, .stb, .ldb, .pix, .cls]

/-- The parameters a machine is built with (R8). -/
structure Config where
  /-- `OPC`, the opcode byte of each mnemonic, by row of R85's table -/
  opc : Vector Byte 25
  /-- `TAG_REG`, the register operand tag -/
  tagReg : Byte
  /-- `TAG_IMM16`, the immediate-short operand tag -/
  tagImm16 : Byte
  /-- `ARENA_SIZE`, bytes in the arena -/
  arenaSize : Nat
  /-- `DISPLAY_W`, width of a pixel buffer -/
  displayW : Nat
  /-- `DISPLAY_H`, height of a pixel buffer -/
  displayH : Nat
  /-- `DIV_OVF`, the result of −32768 ÷ −1 -/
  divOvf : Word
  /-- `IP_BITS`, the width of `pc` and of a call-stack entry -/
  ipBits : Nat
  /-- `ASM_STRICT`, read by the assembler only: what 30_encoding.md R109 and D29 call an error is one -/
  asmStrict : Bool
deriving DecidableEq, Repr

/-- `OPC(m)` (R85). -/
def Config.opcode (c : Config) (m : Mnemonic) : Byte := c.opc[m.row]

/-- Bytes of one pixel buffer (45_display.md R221). -/
def Config.pixels (c : Config) : Nat := c.displayW * c.displayH

/-- The constraints R8 puts on the parameters: `OPC` is injective, the tags differ,
1 ≤ `ARENA_SIZE` ≤ 65536, both display sides are at least 1 with product at most 2^31.
DEDUCED (log entry 3): `IP_BITS` is at least 16, because a control-transfer target is any 16-bit
value (10_state.md R24). -/
abbrev Config.Valid (c : Config) : Prop :=
  c.opc.toList.Nodup ∧ c.tagReg ≠ c.tagImm16 ∧
  (1 ≤ c.arenaSize ∧ c.arenaSize ≤ 65536) ∧
  (1 ≤ c.displayW ∧ 1 ≤ c.displayH ∧ c.pixels ≤ 2147483648) ∧
  16 ≤ c.ipBits

/-- The default opcode bytes of R85's table. -/
def Config.defaultOpc : Vector Byte 25 :=
  #v[0x00, 0x01, 0x02, 0x03, 0x04, 0x05, 0x06, 0x07,
     0x08, 0x09, 0x0A, 0x0B, 0x0C, 0x0D, 0x0E, 0x0F, 0x10, 0x11, 0x12,
     0x13, 0x14, 0x15, 0x16, 0x17, 0x18]

/-- The defaults of R8. DESIGN CHOICE (log entry 2): the display is 4 by 3, the test profile of
95_test_vectors.md, because R8 leaves `DISPLAY_W` and `DISPLAY_H` open. -/
def Config.default : Config where
  opc := Config.defaultOpc
  tagReg := 0xFE
  tagImm16 := 0xFF
  arenaSize := 16000
  displayW := 4
  displayH := 3
  divOvf := 0x8000
  ipBits := 32
  asmStrict := true

/-- `CALL_DEPTH`: the call stack holds at most 256 entries (R8, 10_state.md R30). -/
def callDepth : Nat := 256

/-- `SYSCALL_CAP`: the syscall table holds at most 256 handlers (R8, 10_state.md R36). -/
def syscallCap : Nat := 256

/-- FREE VALUE (log entries 6 and 7): the byte the `draw`th read of a never-written arena byte gives
at address `addr`. 20_memory.md R55: "any byte, drawn afresh on each call". It has no body. -/
opaque Config.freeByte (draw addr : Nat) : Byte

end Sys2Proof
end

