-- ==== Sys2Proof/Syntax.lean ====
section
/-! DEFINITION. The instructions as terms: 30_encoding.md R81 (operand forms), R83 (formats) and R85
(one constructor per row of spec/opcode_table.json). -/

namespace Sys2Proof

/-- A register index 0..15 (10_state.md R21). -/
abbrev RegIdx := Fin 16

/-- A source operand in one of R81's three forms. -/
inductive Operand where
  /-- register form: the value is `x[i]` -/
  | reg (i : RegIdx)
  /-- immediate-short form: a 16-bit pattern, little-endian in the image -/
  | imm16 (v : Word)
  /-- bare literal: one byte that is neither tag, zero-extended -/
  | lit (b : Byte)
deriving DecidableEq, Repr

/-- The 25 instructions. A destination (R82) is a register index `d`; every other operand is a
source operand. -/
inductive Instr where
  | nop
  | sys (k : Operand)
  | mov (d : RegIdx) (a : Operand)
  | add (d : RegIdx) (a b : Operand)
  | sub (d : RegIdx) (a b : Operand)
  | mul (d : RegIdx) (a b : Operand)
  | div (d : RegIdx) (a b : Operand)
  | cmp (a b : Operand)
  | jmp (t : Operand)
  | jeq (t : Operand)
  | jne (t : Operand)
  | jlt (t : Operand)
  | jgt (t : Operand)
  | bra (t : Operand)
  | beq (t : Operand)
  | bne (t : Operand)
  | blt (t : Operand)
  | bgt (t : Operand)
  | ret
  | alc (d : RegIdx) (n : Operand)
  | fre (p : Operand)
  | stb (p o v : Operand)
  | ldb (d : RegIdx) (p o : Operand)
  | pix (x y c : Operand)
  | cls (c : Operand)
deriving DecidableEq, Repr

/-- The mnemonic of an instruction (R85). -/
def Instr.mnemonic : Instr → Mnemonic
  | .nop => .nop
  | .sys _ => .sys
  | .mov _ _ => .mov
  | .add _ _ _ => .add
  | .sub _ _ _ => .sub
  | .mul _ _ _ => .mul
  | .div _ _ _ => .div
  | .cmp _ _ => .cmp
  | .jmp _ => .jmp
  | .jeq _ => .jeq
  | .jne _ => .jne
  | .jlt _ => .jlt
  | .jgt _ => .jgt
  | .bra _ => .bra
  | .beq _ => .beq
  | .bne _ => .bne
  | .blt _ => .blt
  | .bgt _ => .bgt
  | .ret => .ret
  | .alc _ _ => .alc
  | .fre _ => .fre
  | .stb _ _ _ => .stb
  | .ldb _ _ _ => .ldb
  | .pix _ _ _ => .pix
  | .cls _ => .cls

/-- The source operands of an instruction, in the order they are encoded (R83). -/
def Instr.sources : Instr → List Operand
  | .nop | .ret => []
  | .sys a | .mov _ a | .jmp a | .jeq a | .jne a | .jlt a | .jgt a
  | .bra a | .beq a | .bne a | .blt a | .bgt a | .alc _ a | .fre a | .cls a => [a]
  | .add _ a b | .sub _ a b | .mul _ a b | .div _ a b | .cmp a b | .ldb _ a b => [a, b]
  | .stb a b c | .pix a b c => [a, b, c]

/-- The destination register of an instruction, if it has one (R82). -/
def Instr.dest? : Instr → Option RegIdx
  | .mov d _ | .add d _ _ | .sub d _ _ | .mul d _ _ | .div d _ _ | .alc d _ | .ldb d _ _ => some d
  | .nop | .sys _ | .cmp _ _ | .jmp _ | .jeq _ | .jne _ | .jlt _ | .jgt _
  | .bra _ | .beq _ | .bne _ | .blt _ | .bgt _ | .ret | .fre _ | .stb _ _ _ | .pix _ _ _
  | .cls _ => none

end Sys2Proof
end

