-- ==== Sys2Proof/WellFormed.lean ====
section
/-! DEFINITION. Which instruction terms stand for an encoding. The only check left to make is that of
30_encoding.md R87: a bare literal is neither tag byte. (Register indices are in range by type.) -/

namespace Sys2Proof

/-- R81, R87: a bare-literal byte equals neither `TAG_REG` nor `TAG_IMM16`. -/
def Operand.wf (cfg : Config) : Operand → Bool
  | .reg _ => true
  | .imm16 _ => true
  | .lit b => b != cfg.tagReg && b != cfg.tagImm16

/-- Every source operand of the instruction is well-formed. -/
def Instr.wf (cfg : Config) (i : Instr) : Bool := i.sources.all (Operand.wf cfg)

end Sys2Proof
end

