-- ==== Sys2Proof/Decode.lean ====
section
/-! DEFINITION. The decoder of 30_encoding.md section 3 (R84-R92), total on any list of bytes, and after
it the encoder written from the same tables (R81, R83, R85). -/

namespace Sys2Proof

/-! ## Byte order -/

/-- R10, R51: `concat(hi, lo)` is hi·256 + lo. -/
def concat (hi lo : Byte) : Word := hi ++ lo

/-- The low byte of a word, stored first (R51). -/
def lowByte (v : Word) : Byte := v.extractLsb' 0 8

/-- The high byte of a word, stored second (R51). -/
def highByte (v : Word) : Byte := v.extractLsb' 8 8

/-! ## Reading bytes -/

/-- What the decoder rejects, by name: the decoder faults of R86 and R90-R92. -/
inductive DecodeError where
  /-- a byte at or past `L` was read (R90) -/
  | truncated
  /-- the opcode byte is `OPC(m)` for no mnemonic m (R86) -/
  | unknownOpcode
  /-- a destination operand does not start with `TAG_REG` (R92) -/
  | expectedRegister
  /-- a register index byte is above 15 (R91, R92) -/
  | invalidRegister
deriving DecidableEq, Repr

/-- Reads something off the front of a list of bytes and gives it with the bytes left. -/
abbrev Parse (α : Type) := List Byte → Except DecodeError (α × List Byte)

/-- Gives a value and reads nothing. -/
def Parse.done {α : Type} (a : α) : Parse α := fun bs => .ok (a, bs)

/-- Rejects. -/
def Parse.fail {α : Type} (e : DecodeError) : Parse α := fun _ => .error e

/-- Reads with `p`, then goes on with what `f` makes of it: operands are read left to right, bytes in
address order, and the first rejection is the result (R89, 60_exceptions.md R233). -/
def Parse.andThen {α β : Type} (p : Parse α) (f : α → Parse β) : Parse β := fun bs =>
  match p bs with
  | .ok (a, rest) => f a rest
  | .error e => .error e

/-- `Fetch8()` (R90) on the bytes from `pc` to the end of the image. -/
def fetch8 : Parse Byte
  | [] => .error .truncated
  | b :: bs => .ok (b, bs)

/-- A register index byte: 0..15, or `InvalidRegister` (R91, R92). -/
def readIndex : Parse RegIdx :=
  fetch8.andThen fun i => if h : i.toNat < 16 then .done ⟨i.toNat, h⟩ else .fail .invalidRegister

/-- `ReadReg()` (R92). -/
def readReg (cfg : Config) : Parse RegIdx :=
  fetch8.andThen fun t => if t = cfg.tagReg then readIndex else .fail .expectedRegister

/-- `ReadOperand()` (R91). It gives the operand's form; the value is read from it when the
instruction runs (Machine/Operands.lean), before anything is written. -/
def readOperand (cfg : Config) : Parse Operand :=
  fetch8.andThen fun t =>
    if t = cfg.tagReg then readIndex.andThen fun i => .done (.reg i)
    else if t = cfg.tagImm16 then
      fetch8.andThen fun lo => fetch8.andThen fun hi => .done (.imm16 (concat hi lo))
    else .done (.lit t)

/-! ## The formats of R83 -/

/-- Format O: one source operand. -/
def formatO (cfg : Config) (f : Operand → Instr) : Parse Instr :=
  (readOperand cfg).andThen fun a => .done (f a)

/-- Format OO: two source operands. -/
def formatOO (cfg : Config) (f : Operand → Operand → Instr) : Parse Instr :=
  (readOperand cfg).andThen fun a => formatO cfg (f a)

/-- Format OOO: three source operands. -/
def formatOOO (cfg : Config) (f : Operand → Operand → Operand → Instr) : Parse Instr :=
  (readOperand cfg).andThen fun a => formatOO cfg (f a)

/-- Format RO: a destination register, then one source operand. -/
def formatRO (cfg : Config) (f : RegIdx → Operand → Instr) : Parse Instr :=
  (readReg cfg).andThen fun d => formatO cfg (f d)

/-- Format ROO: a destination register, then two source operands. -/
def formatROO (cfg : Config) (f : RegIdx → Operand → Operand → Instr) : Parse Instr :=
  (readReg cfg).andThen fun d => formatOO cfg (f d)

/-! ## The opcode map -/

/-- The mnemonic m with `OPC(m) = b`, if there is one (R85, R86). -/
def mnemonicOf (cfg : Config) (b : Byte) : Option Mnemonic :=
  Mnemonic.all.find? fun m => cfg.opcode m == b

/-- The operands each opcode takes (R85's format column). -/
def readOperands (cfg : Config) : Mnemonic → Parse Instr
  | .nop => .done .nop
  | .sys => formatO cfg .sys
  | .mov => formatRO cfg .mov
  | .add => formatROO cfg .add
  | .sub => formatROO cfg .sub
  | .mul => formatROO cfg .mul
  | .div => formatROO cfg .div
  | .cmp => formatOO cfg .cmp
  | .jmp => formatO cfg .jmp
  | .jeq => formatO cfg .jeq
  | .jne => formatO cfg .jne
  | .jlt => formatO cfg .jlt
  | .jgt => formatO cfg .jgt
  | .bra => formatO cfg .bra
  | .beq => formatO cfg .beq
  | .bne => formatO cfg .bne
  | .blt => formatO cfg .blt
  | .bgt => formatO cfg .bgt
  | .ret => .done .ret
  | .alc => formatRO cfg .alc
  | .fre => formatO cfg .fre
  | .stb => formatOOO cfg .stb
  | .ldb => formatROO cfg .ldb
  | .pix => formatOOO cfg .pix
  | .cls => formatO cfg .cls

/-- Decode one instruction off the front of a list of bytes (R84, 40_execution_loop.md R123). -/
def decode (cfg : Config) : Parse Instr :=
  fetch8.andThen fun op =>
    match mnemonicOf cfg op with
    | some m => readOperands cfg m
    | none => .fail .unknownOpcode

/-! ## The encoder -/

/-- The bytes of a source operand (R81). -/
def Operand.bytes (cfg : Config) : Operand → List Byte
  | .reg i => [cfg.tagReg, BitVec.ofNat 8 i.val]
  | .imm16 v => [cfg.tagImm16, lowByte v, highByte v]
  | .lit b => [b]

/-- The bytes of a destination operand (R82). -/
def destBytes (cfg : Config) (d : RegIdx) : List Byte := [cfg.tagReg, BitVec.ofNat 8 d.val]

/-- The bytes of an instruction: opcode, destination if any, source operands in order (R80, R83). -/
def encode (cfg : Config) (i : Instr) : List Byte :=
  cfg.opcode i.mnemonic ::
    ((i.dest?.map (destBytes cfg)).getD [] ++ i.sources.flatMap (Operand.bytes cfg))

/-- The bytes a source operand takes: 2, 3 or 1 (R81). -/
def Operand.size : Operand → Nat
  | .reg _ => 2
  | .imm16 _ => 3
  | .lit _ => 1

/-- The bytes an instruction takes: 1 plus the lengths of its operands (R83, R84). -/
def Instr.size (i : Instr) : Nat :=
  1 + (if i.dest?.isSome then 2 else 0) + (i.sources.map Operand.size).sum

/-! ## Words as the opcode table numbers them -/

/-- The longest instruction is 10 bytes (R80). -/
def maxInstrBytes : Nat := 10

/-- `nbits` bits `w` laid out in image order, bit 0 the lowest bit of the first byte, and zeros above
`nbits` up to the longest instruction. -/
def tableBytes (nbits w : Nat) : List Byte :=
  (List.range maxInstrBytes).map fun k => BitVec.ofNat 8 ((w % 2 ^ nbits) >>> (8 * k))

/-- The instruction the decoder reads from a table word, under the default parameters of R8. -/
def decodeTableWord (nbits w : Nat) : Option Instr :=
  match decode Config.default (tableBytes nbits w) with
  | .ok (i, _) => some i
  | .error _ => none

end Sys2Proof
end

