-- ==== Sys2Proof/Machine/State.lean ====
section
/-! DEFINITION. The state of the block as plain data (10_state.md R20), the reasons a step can stop, and
the state after `create()` (70_reset_and_hazards.md R260). -/

namespace Sys2Proof.Machine

/-- Bytes by address: addresses strictly rising, one entry each (`Memory.wf` in Machine/Memory.lean).
An address with no entry holds no byte the model knows: "never written" in the arena (R35), the
host's own content in a pixel buffer (R38). -/
abbrev Memory := List Host.Cell

/-- The size table (R33): pointers strictly rising, each with the size of its live allocation. -/
abbrev SizeTable := List (Nat × Nat)

/-- The comparison flags (R25). -/
structure Flags where
  eq : Bool
  lt : Bool
  gt : Bool
deriving DecidableEq, Repr

/-- The run states (R28, 40_execution_loop.md R125). -/
inductive RunState where
  | ready
  | running
  | halted
  | faulted
deriving DecidableEq, Repr

/-- The 13 faults of 60_exceptions.md R231, in the order of their codes. -/
inductive FaultKind where
  | unknownOpcode
  | expectedRegister
  | divisionByZero
  | outOfMemory
  | memoryNotAllocated
  | noHandler
  | callStackOverflow
  | callStackUnderflow
  | invalidRegister
  | truncatedInstruction
  | invalidFree
  | badAllocSize
  | pixelOutOfBounds
deriving DecidableEq, Repr

/-- What a handler that returned wrote, and its status (41_system.md R142). Each list is applied in
order. Only the parts R142 lets a handler write can be named here. -/
structure HandlerReply where
  /-- register writes -/
  regs : List (RegIdx × Word)
  /-- arena writes, allocated or not -/
  arena : List Host.Cell
  /-- the new selector, if it was written -/
  abuf : Option (Fin 2)
  /-- pixel writes: which buffer, index, colour -/
  pixels : List (Fin 2 × Host.Cell)
  /-- zero continues, non-zero requests a halt (R141) -/
  status : Int
deriving DecidableEq, Repr, Inhabited

/-- One call of a handler: it returns, or it never does (40_execution_loop.md R128 c). -/
inductive HandlerAnswer where
  | returns (r : HandlerReply)
  | never
deriving DecidableEq, Repr, Inhabited

/-- A handler `H_k` (R36, R142) as data: `answers[n]` is what it answers if it is the handler called
by the `n`th SYS of the run that reaches a handler. Where nothing is listed the answer is the free
value `Config.handlerAnswer` (log entry 8). -/
structure Handler where
  answers : List HandlerAnswer
deriving DecidableEq, Repr

/-- The state of the block: the tuple of R20, the two pixel buffers it writes (R38), its parameters
(00_scope.md R8) and the model's two counters. -/
structure State where
  /-- the parameters of this machine (00_scope.md R8); no step changes them -/
  cfg : Config
  /-- `x[0..15]` (R21) -/
  regs : Vector Word 16
  /-- `pc`, a byte offset into the image (R23) -/
  pc : Nat
  /-- `EQ`, `LT`, `GT` (R25) -/
  flags : Flags
  /-- `cs`, the call stack, last entry on top (R30) -/
  cs : List Nat
  /-- `amap`, the allocation map: bit `a` of the number is `amap[a]` (R32, log entry 5) -/
  amap : Nat
  /-- `stab`, the size table (R33) -/
  stab : SizeTable
  /-- `arena`, the bytes written so far (R35) -/
  arena : Memory
  /-- `img`, the program image; `L` is its length (R39) -/
  img : List Byte
  /-- the syscall table `H_0 .. H_(NH-1)`; `NH` is its length (R36) -/
  handlers : List Handler
  /-- `abuf`, the active-buffer selector (R37) -/
  abuf : Fin 2
  /-- `pbuf[0]` and `pbuf[1]`, the pixels known to have been written (R38, log entry 22) -/
  pbuf : Vector Memory 2
  /-- `rstate` (R28) -/
  rstate : RunState
  /-- `fault`: the fault and its address, of a Faulted run (R29) -/
  fault : Option (FaultKind × Nat)
  /-- the model's own: draws of never-written bytes made so far (log entry 7) -/
  draws : Nat
  /-- the model's own: SYS calls a handler has returned from so far (log entry 8) -/
  calls : Nat
deriving DecidableEq, Repr

end Sys2Proof.Machine

namespace Sys2Proof

/-- FREE VALUE (log entry 8): what handler `k` answers at the run's `call`th SYS, given the whole
state with `pc` already past the instruction (41_system.md R141, R142), where its table entry lists
no answer. It has no body. -/
opaque Config.handlerAnswer (k call : Nat) (s : Machine.State) : Machine.HandlerAnswer

end Sys2Proof

namespace Sys2Proof.Machine

/-- Reasons the machine stops. -/
inductive Fault where
  /-- Raised by `step` in a Faulted state: the run is over and takes no further step
  (40_execution_loop.md R125); carries the state's fault record. Safe: nothing runs after it. -/
  | runFaulted (record : Option (FaultKind × Nat))
deriving DecidableEq, Repr

/-- Reasons the model gives no next state. -/
inductive Refusal where
  /-- Raised by an arm of `exec` whose instruction has no meaning yet. Safe. No arm is left so. -/
  | notModelled (mnemonic : String)
  /-- Raised by `step` in a Halted state: the run ended cleanly and takes no further step (R120);
  a second run is outside the model (92_eei_decisions.md D25). Safe. -/
  | runHalted
  /-- Raised by the host port (`State.load`, `State.registerHandler`, `State.run`) once a run has
  begun (D25, 41_system.md R143). Safe. -/
  | runBegun
  /-- Raised by `State.registerHandler` with 256 handlers registered (R143). Safe: R143 says the
  call is rejected and changes nothing. -/
  | syscallTableFull
  /-- Raised by `State.load` for an image of 2^`IP_BITS` bytes or more (00_scope.md R8). Safe. -/
  | imageTooLong
deriving DecidableEq, Repr

/-- `create()` with parameters `cfg` (70_reset_and_hazards.md R260). -/
def State.create (cfg : Config) : State where
  cfg := cfg
  regs := Vector.replicate 16 0
  pc := 0
  flags := { eq := false, lt := false, gt := false }
  cs := []
  amap := 0
  stab := []
  arena := []
  img := []
  handlers := []
  abuf := 0
  pbuf := Vector.replicate 2 []
  rstate := .ready
  fault := none
  draws := 0
  calls := 0

/-- The machine right after reset: `create()` with the default parameters. -/
def State.reset : State := State.create Config.default

end Sys2Proof.Machine
end

