-- ==== Sys2Proof/Machine/Memory.lean ====
section
/-! DEFINITION. Sparse data by key: the arena and the pixel buffers (bytes by address) and the size
table (sizes by pointer) are lists with keys strictly rising, so that equal contents are equal lists. -/

namespace Sys2Proof.Machine

/-! ## Lists by key -/

/-- The entry of key `k`. -/
def keyGet {β : Type} : List (Nat × β) → Nat → Option β
  | [], _ => none
  | (a, b) :: m, k => if a = k then some b else keyGet m k

/-- The list with `v` at key `k`, entered in order. -/
def keySet {β : Type} : List (Nat × β) → Nat → β → List (Nat × β)
  | [], k, v => [(k, v)]
  | (a, b) :: m, k, v =>
    if k < a then (k, v) :: (a, b) :: m
    else if k = a then (k, v) :: m
    else (a, b) :: keySet m k v

/-- The list without key `k`. -/
def keyErase {β : Type} : List (Nat × β) → Nat → List (Nat × β)
  | [], _ => []
  | (a, b) :: m, k => if a = k then m else (a, b) :: keyErase m k

/-- Keys strictly rise from `lo` on. -/
def keysFrom {β : Type} : Nat → List (Nat × β) → Bool
  | _, [] => true
  | lo, (a, _) :: m => decide (lo ≤ a) && keysFrom (a + 1) m

/-! ## Bytes by address -/

/-- The canonical form: addresses strictly rising. An unlisted address holds no byte (`Memory.read`
gives `none`), so no entry can equal what an unlisted address reads as. -/
def Memory.wf (m : Memory) : Bool := keysFrom 0 m

/-- The byte at an address; `none` where nothing was written (10_state.md R35; log entry 6). -/
def Memory.read (m : Memory) (a : Nat) : Option Byte := keyGet m a

/-- Write one byte (20_memory.md R53: every access is one byte). -/
def Memory.write (m : Memory) (a : Nat) (b : Byte) : Memory := keySet m a b

/-- The memory whose addresses below `n` all hold `b`, and no other (45_display.md R222). -/
def Memory.fill (n : Nat) (b : Byte) : Memory := (List.range n).map fun a => (a, b)

/-- Every listed address is below `n`. -/
def Memory.below (n : Nat) (m : Memory) : Bool := m.all fun c => decide (c.1 < n)

end Sys2Proof.Machine
end

