-- ==== Sys2Proof/Machine/Allocator.lean ====
section
/-! DEFINITION. The bitmap allocator of 20_memory.md section 4 (R60, R61) over the allocation map and the
size table. -/

namespace Sys2Proof.Machine

/-- The bits of addresses `p .. p+n−1`. -/
def runMask (p n : Nat) : Nat := (2 ^ n - 1) <<< p

/-- `amap[p .. p+n−1]` are all 0. -/
def runFree (amap p n : Nat) : Bool := amap &&& runMask p n == 0

/-- `amap[p .. p+n−1] <- 1`. -/
def markRun (amap p n : Nat) : Nat := amap ||| runMask p n

/-- `amap[p .. p+n−1] <- 0`. -/
def clearRun (amap p n : Nat) : Nat := amap ^^^ (amap &&& runMask p n)

/-- The first of the `tries` addresses from `p` on at which `n` free bytes begin. -/
def firstFitFrom (amap n : Nat) : Nat → Nat → Option Nat
  | 0, _ => none
  | tries + 1, p => if runFree amap p n then some p else firstFitFrom amap n tries (p + 1)

/-- The scan of R60: p = 0, 1, ..., `size` − n, ascending, and an empty range if n > `size`. -/
def firstFit (size amap n : Nat) : Option Nat := firstFitFrom amap n (size + 1 - n) 0

/-- `allocate(n)` (R60), for n ≥ 1: the pointer and the state with the block marked and recorded. -/
def State.allocate (n : Nat) (s : State) : Option (Nat × State) :=
  match firstFit s.cfg.arenaSize s.amap n with
  | some p => some (p, { s with amap := markRun s.amap p n, stab := keySet s.stab p n })
  | none => none

/-- `free(p)` (R61): the state with the block of the live allocation at `p` unmarked and its record
removed. The bytes keep what they hold. -/
def State.free (p : Nat) (s : State) : Option State :=
  match keyGet s.stab p with
  | some n => some { s with amap := clearRun s.amap p n, stab := keyErase s.stab p }
  | none => none

/-- `Allocated(ea)` (R57): inside the arena and marked. -/
def State.allocated (s : State) (ea : Nat) : Bool :=
  decide (ea < s.cfg.arenaSize) && s.amap.testBit ea

end Sys2Proof.Machine
end

