-- ==== Sys2Proof/Machine/Bits.lean ====
section
/-! DEFINITION. Reading words as integers, narrowing, and byte widths (00_scope.md R10). -/

namespace Sys2Proof.Machine

/-- `uint(v)`: the word as an unsigned integer, 0..65535. -/
def uint (v : Word) : Nat := v.toNat

/-- `sint(v)`: the word as a two's-complement integer, −32768..32767. -/
def sint (v : Word) : Int := v.toInt

/-- `wrap_16(n)`: the word w with `uint(w) = n mod 65536`. -/
def wrap16 (n : Int) : Word := BitVec.ofInt 16 n

/-- `zext_16(b)`: a byte zero-extended to a word. -/
def zext16 (b : Byte) : Word := b.setWidth 16

/-- `trunc_8(v)`: the low byte `v[7:0]`. -/
def trunc8 (v : Word) : Byte := v.setWidth 8

end Sys2Proof.Machine
end

