-- ==== Sys2Proof/Machine/Flags.lean ====
section
/-! DEFINITION. The comparison flags: how CMP sets them (42_alu.md R170), the four conditions
(10_state.md R26) and the packing shown to observers (R27). -/

namespace Sys2Proof.Machine

/-- R170: the three flags of a signed comparison. -/
def compareFlags (a b : Word) : Flags where
  eq := decide (sint a = sint b)
  lt := decide (sint a < sint b)
  gt := decide (sint a > sint b)

/-- R26, condition EQ: taken when `EQ = 1`. -/
def Flags.condEq (f : Flags) : Bool := f.eq

/-- R26, condition NE: taken when `EQ = 0`. -/
def Flags.condNe (f : Flags) : Bool := !f.eq

/-- R26, condition LT: taken when `LT = 1`. -/
def Flags.condLt (f : Flags) : Bool := f.lt

/-- R26, condition GT: taken when `GT = 1`. -/
def Flags.condGt (f : Flags) : Bool := f.gt

/-- R27: `EQ·1 + LT·2 + GT·4`, for the step observer or a register dump. -/
def Flags.pack (f : Flags) : BitVec 3 :=
  BitVec.ofNat 3 (f.eq.toNat * 1 + f.lt.toNat * 2 + f.gt.toNat * 4)

end Sys2Proof.Machine
end

