-- ==== Sys2Proof/Machine/Ops.lean ====
section
/-! DEFINITION. The named operations over the state that the instruction meanings share: registers, pc,
the call stack, arena bytes, pixels, handlers, the clean halt, and taking a fault. -/

namespace Sys2Proof.Machine

/-! ## Registers and pc -/

/-- `x[i]` (10_state.md R21). No register is hardwired. -/
def State.reg (s : State) (i : RegIdx) : Word := s.regs[i.val]

/-- `x[i] <- v` (R21). -/
def State.setReg (i : RegIdx) (v : Word) (s : State) : State :=
  { s with regs := s.regs.set i.val v }

/-- `pc <- t` (00_scope.md R11). -/
def State.setPc (t : Nat) (s : State) : State := { s with pc := t }

/-- `EQ`, `LT` and `GT` written together (R25). -/
def State.setFlags (f : Flags) (s : State) : State := { s with flags := f }

/-! ## Taking a fault, and the clean halt -/

/-- The numeric code of a fault (60_exceptions.md R231). -/
def FaultKind.code : FaultKind → Nat
  | .unknownOpcode => 1
  | .expectedRegister => 2
  | .divisionByZero => 3
  | .outOfMemory => 4
  | .memoryNotAllocated => 5
  | .noHandler => 6
  | .callStackOverflow => 7
  | .callStackUnderflow => 8
  | .invalidRegister => 9
  | .truncatedInstruction => 10
  | .invalidFree => 11
  | .badAllocSize => 12
  | .pixelOutOfBounds => 13

/-- The message of a fault (R231). -/
def FaultKind.message : FaultKind → String
  | .unknownOpcode => "unknown opcode"
  | .expectedRegister => "expected register"
  | .divisionByZero => "division by zero"
  | .outOfMemory => "out of memory"
  | .memoryNotAllocated => "memory not allocated"
  | .noHandler => "no handler at ordinal"
  | .callStackOverflow => "call stack overflow"
  | .callStackUnderflow => "call stack underflow"
  | .invalidRegister => "invalid register"
  | .truncatedInstruction => "truncated instruction"
  | .invalidFree => "invalid free"
  | .badAllocSize => "zero-size allocation"
  | .pixelOutOfBounds => "pixel out of bounds"

/-- The fault a decoder rejection raises (R231). -/
def faultOfDecode : DecodeError → FaultKind
  | .truncated => .truncatedInstruction
  | .unknownOpcode => .unknownOpcode
  | .expectedRegister => .expectedRegister
  | .invalidRegister => .invalidRegister

/-- `raise F(start)` (R236): `rstate <- Faulted`, `fault <- (F, start)`, `pc <- start`, and nothing
else. There is no handler and no return (R230, R238). -/
def State.raise (k : FaultKind) (start : Nat) (s : State) : State :=
  { s with rstate := .faulted, fault := some (k, start), pc := start }

/-- The clean halt: `rstate <- Halted` (40_execution_loop.md R121, 41_system.md R141). The result of
the run is `x[0]`, which stays where it is (log entry 14). -/
def State.halt (s : State) : State := { s with rstate := .halted }

/-! ## The call stack -/

/-- `push(v)` (10_state.md R30); `none` when 256 entries are on the stack. -/
def State.push (v : Nat) (s : State) : Option State :=
  if s.cs.length = callDepth then none else some { s with cs := s.cs ++ [v] }

/-- `pop()` (R30): the last entry and the state without it; `none` when the stack is empty. -/
def State.pop (s : State) : Option (Nat × State) :=
  match s.cs.getLast? with
  | some v => some (v, { s with cs := s.cs.dropLast })
  | none => none

/-! ## Arena bytes -/

/-- The byte `arena[a]`, or `none` for "never written" (R35). -/
def State.arenaByte (s : State) (a : Nat) : Option Byte := Memory.read s.arena a

/-- `MemRead(a, 1)` (20_memory.md R55): the byte, or a fresh draw where none was written. -/
def State.memRead (a : Nat) (s : State) : Byte × State :=
  match s.arenaByte a with
  | some b => (b, s)
  | none => (Config.freeByte s.draws a, { s with draws := s.draws + 1 })

/-- `MemWrite(a, 1, v)` (R56). -/
def State.memWrite (a : Nat) (b : Byte) (s : State) : State :=
  { s with arena := Memory.write s.arena a b }

/-! ## Pixels -/

/-- The byte at index `i` of `pbuf[n]`, as far as it is known (R38). -/
def State.pixel (s : State) (n : Fin 2) (i : Nat) : Option Byte := Memory.read s.pbuf[n.val] i

/-- Replace the whole of `pbuf[n]`. -/
def State.setBuffer (n : Fin 2) (m : Memory) (s : State) : State :=
  { s with pbuf := s.pbuf.set n.val m }

/-- `pbuf[n][i] <- c`. -/
def State.setPixel (n : Fin 2) (i : Nat) (c : Byte) (s : State) : State :=
  s.setBuffer n (Memory.write s.pbuf[n.val] i c)

/-- `PixWrite(i, c)`: into the active buffer (00_scope.md R11, 45_display.md R220). -/
def State.pixWrite (i : Nat) (c : Byte) (s : State) : State := s.setPixel s.abuf i c

/-- Fill the active buffer (R222). -/
def State.pixFill (c : Byte) (s : State) : State :=
  s.setBuffer s.abuf (Memory.fill s.cfg.pixels c)

/-! ## Handlers -/

/-- What handler `h`, registered at ordinal `k`, answers in state `s` (41_system.md R142): the answer
its table entry lists for this call, else the free value. -/
def State.handlerAnswer (k : Nat) (h : Handler) (s : State) : HandlerAnswer :=
  match h.answers[s.calls]? with
  | some a => a
  | none => Config.handlerAnswer k s.calls s

/-- A handler's register writes (R142). -/
def State.applyRegs (ws : List (RegIdx × Word)) (s : State) : State :=
  ws.foldl (fun t w => t.setReg w.1 w.2) s

/-- A handler's arena writes, to any byte that exists, allocated or not (R142; log entry 10). -/
def State.applyArena (ws : List Host.Cell) (s : State) : State :=
  ws.foldl (fun t w => if w.1 < t.cfg.arenaSize then t.memWrite w.1 w.2 else t) s

/-- A handler's pixel writes, to any pixel that exists (R142; log entry 10). -/
def State.applyPixels (ws : List (Fin 2 × Host.Cell)) (s : State) : State :=
  ws.foldl (fun t w => if w.2.1 < t.cfg.pixels then t.setPixel w.1 w.2.1 w.2.2 else t) s

/-- A handler's write of the selector (R142, 10_state.md R37). -/
def State.applyAbuf (n : Option (Fin 2)) (s : State) : State := { s with abuf := n.getD s.abuf }

/-- `apply s'` of R141: all a handler wrote, and the call is counted. -/
def State.applyReply (r : HandlerReply) (s : State) : State :=
  let t := (((s.applyRegs r.regs).applyArena r.arena).applyPixels r.pixels).applyAbuf r.abuf
  { t with calls := t.calls + 1 }

end Sys2Proof.Machine
end

