-- ==== Sys2Proof/Machine/Operands.lean ====
section
/-! DEFINITION. The value of a source operand in each of its forms (30_encoding.md R81, R88, R91) and the
one addressing mode (20_memory.md R57, 44_memory_ops.md R205). -/

namespace Sys2Proof.Machine

/-- The value `ReadOperand()` returns (R91): the register's 16 bits, the 16-bit immediate, or the
zero-extended literal (R88). -/
def State.value (s : State) : Operand → Word
  | .reg i => s.reg i
  | .imm16 v => v
  | .lit b => zext16 b

/-- The value of `pc` once all operands of `i` are decoded: the address of the next instruction in
sequence (10_state.md R23). `s.pc` is `start`, the offset of the opcode byte. -/
def State.pcAfter (i : Instr) (s : State) : Nat := s.pc + i.size

/-- Leave `pc` at the next instruction in sequence (R23). -/
def State.past (i : Instr) (s : State) : State := s.setPc (s.pcAfter i)

/-- `EA(ptr, off)` = `uint(wrap_16(uint(ptr) + uint(off)))`, 0..65535 (R57). -/
def effectiveAddress (ptr off : Word) : Nat := uint (wrap16 ((uint ptr : Int) + uint off))

end Sys2Proof.Machine
end

