-- ==== Sys2Proof/Machine/Alu.lean ====
section
/-! DEFINITION. MOV, ADD, SUB, MUL, DIV, CMP (42_alu.md R160-R171). Every meaning is given the state with
`pc = start`, reads its operands there, and leaves `pc` at the next instruction. -/

namespace Sys2Proof.Machine

/-- R161: `wrap_16(uint(a) + uint(b))`. -/
def aluAdd (a b : Word) : Word := wrap16 ((uint a : Int) + uint b)

/-- R162: `wrap_16(uint(a) − uint(b))`. -/
def aluSub (a b : Word) : Word := wrap16 ((uint a : Int) - uint b)

/-- R163: `wrap_16(uint(a) × uint(b))`. -/
def aluMul (a b : Word) : Word := wrap16 ((uint a : Int) * uint b)

/-- R164, for b ≠ 0: the quotient truncated toward zero (log entry 20), and `DIV_OVF` in the one case
whose quotient does not fit. -/
def aluDiv (cfg : Config) (a b : Word) : Word :=
  if sint a = -32768 ∧ sint b = -1 then cfg.divOvf else wrap16 (Int.tdiv (sint a) (sint b))

/-- Write `v` to the destination of `i` and go on to the next instruction (R160-R164). -/
def State.writeResult (i : Instr) (d : RegIdx) (v : Word) (s : State) : State :=
  (s.setReg d v).past i

/-- R160 MOV: `x[d] <- a`. -/
def execMov (d : RegIdx) (a : Operand) (s : State) : Host.Outcome State Fault Refusal :=
  .next (s.writeResult (.mov d a) d (s.value a))

/-- R161 ADD. -/
def execAdd (d : RegIdx) (a b : Operand) (s : State) : Host.Outcome State Fault Refusal :=
  .next (s.writeResult (.add d a b) d (aluAdd (s.value a) (s.value b)))

/-- R162 SUB: the first source minus the second. -/
def execSub (d : RegIdx) (a b : Operand) (s : State) : Host.Outcome State Fault Refusal :=
  .next (s.writeResult (.sub d a b) d (aluSub (s.value a) (s.value b)))

/-- R163 MUL: the low 16 bits of the product. -/
def execMul (d : RegIdx) (a b : Operand) (s : State) : Host.Outcome State Fault Refusal :=
  .next (s.writeResult (.mul d a b) d (aluMul (s.value a) (s.value b)))

/-- R164 DIV: signed; a zero divisor takes DivisionByZero and `x[d]` is not written. -/
def execDiv (d : RegIdx) (a b : Operand) (s : State) : Host.Outcome State Fault Refusal :=
  if uint (s.value b) = 0 then .next (s.raise .divisionByZero s.pc)
  else .next (s.writeResult (.div d a b) d (aluDiv s.cfg (s.value a) (s.value b)))

/-- R170 CMP: all three flags, every time. -/
def execCmp (a b : Operand) (s : State) : Host.Outcome State Fault Refusal :=
  .next ((s.setFlags (compareFlags (s.value a) (s.value b))).past (.cmp a b))

end Sys2Proof.Machine
end

