-- ==== Sys2Proof/Machine/Arena.lean ====
section
/-! DEFINITION. ALC, FRE, STB, LDB (44_memory_ops.md R200-R206). -/

namespace Sys2Proof.Machine

/-- R200 ALC: BadAllocSize for size 0, OutOfMemory when no run of n free bytes exists, else the
pointer of the first fit. -/
def execAlc (d : RegIdx) (n : Operand) (s : State) : Host.Outcome State Fault Refusal :=
  if uint (s.value n) = 0 then .next (s.raise .badAllocSize s.pc)
  else
    match s.allocate (uint (s.value n)) with
    | some (p, s') => .next ((s'.setReg d (wrap16 p)).past (.alc d n))
    | none => .next (s.raise .outOfMemory s.pc)

/-- R202 FRE: InvalidFree when the pointer is not the start of a live allocation. -/
def execFre (p : Operand) (s : State) : Host.Outcome State Fault Refusal :=
  match s.free (uint (s.value p)) with
  | some s' => .next (s'.past (.fre p))
  | none => .next (s.raise .invalidFree s.pc)

/-- R204 STB: the low 8 bits of the value into one allocated arena byte. -/
def execStb (p o v : Operand) (s : State) : Host.Outcome State Fault Refusal :=
  let ea := effectiveAddress (s.value p) (s.value o)
  if s.allocated ea then .next ((s.memWrite ea (trunc8 (s.value v))).past (.stb p o v))
  else .next (s.raise .memoryNotAllocated s.pc)

/-- R206 LDB: one allocated arena byte, zero-extended. -/
def execLdb (d : RegIdx) (p o : Operand) (s : State) : Host.Outcome State Fault Refusal :=
  let ea := effectiveAddress (s.value p) (s.value o)
  if s.allocated ea then
    .next ((((s.memRead ea).2).setReg d (zext16 (s.memRead ea).1)).past (.ldb d p o))
  else .next (s.raise .memoryNotAllocated s.pc)

end Sys2Proof.Machine
end

