-- ==== Sys2Proof/Machine/Control.lean ====
section
/-! DEFINITION. Jumps, branch-and-link and return (43_control.md R180-R193). A target is `uint` of the
operand value; it needs no alignment and may lie past the image (R24, R121). -/

namespace Sys2Proof.Machine

/-- A jump `i` to `t`, taken when `taken` holds; else the next instruction in sequence (R180-R184). -/
def State.jump (i : Instr) (t : Operand) (taken : Bool) (s : State) : State :=
  if taken then s.setPc (uint (s.value t)) else s.past i

/-- The link rule of R185 for branch-and-link `i` to `t`: when taken, push the address after the target
operand and jump, or take CallStackOverflow with `cs` and `pc` unchanged; when not taken, fall
through with no check. -/
def State.branchLink (i : Instr) (t : Operand) (taken : Bool) (s : State) : State :=
  if taken then
    match s.push (s.pcAfter i) with
    | some s' => s'.setPc (uint (s.value t))
    | none => s.raise .callStackOverflow s.pc
  else s.past i

/-- R180 JMP. -/
def execJmp (t : Operand) (s : State) : Host.Outcome State Fault Refusal :=
  .next (s.jump (.jmp t) t true)

/-- R181 JEQ. -/
def execJeq (t : Operand) (s : State) : Host.Outcome State Fault Refusal :=
  .next (s.jump (.jeq t) t s.flags.condEq)

/-- R182 JNE. -/
def execJne (t : Operand) (s : State) : Host.Outcome State Fault Refusal :=
  .next (s.jump (.jne t) t s.flags.condNe)

/-- R183 JLT. -/
def execJlt (t : Operand) (s : State) : Host.Outcome State Fault Refusal :=
  .next (s.jump (.jlt t) t s.flags.condLt)

/-- R184 JGT. -/
def execJgt (t : Operand) (s : State) : Host.Outcome State Fault Refusal :=
  .next (s.jump (.jgt t) t s.flags.condGt)

/-- R186 BRA. -/
def execBra (t : Operand) (s : State) : Host.Outcome State Fault Refusal :=
  .next (s.branchLink (.bra t) t true)

/-- R187 BEQ. -/
def execBeq (t : Operand) (s : State) : Host.Outcome State Fault Refusal :=
  .next (s.branchLink (.beq t) t s.flags.condEq)

/-- R188 BNE. -/
def execBne (t : Operand) (s : State) : Host.Outcome State Fault Refusal :=
  .next (s.branchLink (.bne t) t s.flags.condNe)

/-- R189 BLT. -/
def execBlt (t : Operand) (s : State) : Host.Outcome State Fault Refusal :=
  .next (s.branchLink (.blt t) t s.flags.condLt)

/-- R190 BGT. -/
def execBgt (t : Operand) (s : State) : Host.Outcome State Fault Refusal :=
  .next (s.branchLink (.bgt t) t s.flags.condGt)

/-- R192 RET: `pc <- pop()`; CallStackUnderflow on an empty stack. -/
def execRet (s : State) : Host.Outcome State Fault Refusal :=
  match s.pop with
  | some (v, s') => .next (s'.setPc v)
  | none => .next (s.raise .callStackUnderflow s.pc)

end Sys2Proof.Machine
end

