-- ==== Sys2Proof/Machine/Display.lean ====
section
/-! DEFINITION. PIX and CLS (45_display.md R220-R223). -/

namespace Sys2Proof.Machine

/-- R220: both coordinates inside the buffer, read as signed. -/
def pixelInBounds (cfg : Config) (x y : Word) : Bool :=
  decide (0 ≤ sint x ∧ sint x < cfg.displayW ∧ 0 ≤ sint y ∧ sint y < cfg.displayH)

/-- R220, R221: the row-major index `y·W + x`. -/
def pixelIndex (cfg : Config) (x y : Word) : Nat := (sint y * cfg.displayW + sint x).toNat

/-- R220 PIX: one pixel of the active buffer, the colour truncated to 8 bits; PixelOutOfBounds
outside. -/
def execPix (x y c : Operand) (s : State) : Host.Outcome State Fault Refusal :=
  if pixelInBounds s.cfg (s.value x) (s.value y) then
    .next ((s.pixWrite (pixelIndex s.cfg (s.value x) (s.value y)) (trunc8 (s.value c))).past
      (.pix x y c))
  else .next (s.raise .pixelOutOfBounds s.pc)

/-- R222 CLS: the whole active buffer, in one step. -/
def execCls (c : Operand) (s : State) : Host.Outcome State Fault Refusal :=
  .next ((s.pixFill (trunc8 (s.value c))).past (.cls c))

end Sys2Proof.Machine
end

