-- ==== Sys2Proof/Machine/System.lean ====
section
/-! DEFINITION. NOP and SYS (41_system.md R140-R144). -/

namespace Sys2Proof.Machine

/-- R140 NOP: advance only. -/
def execNop (s : State) : Host.Outcome State Fault Refusal := .next (s.past .nop)

/-- R141: what a handler that returned did, and its request to halt if the status is not zero.
After a halt request `pc` stays at the instruction after SYS. -/
def State.finishCall (r : HandlerReply) (s : State) : State :=
  if r.status = 0 then s.applyReply r else (s.applyReply r).halt

/-- R141 SYS: NoHandler when the ordinal is at or past `NH`; else the handler runs on the state with
`pc` already advanced. A handler that never returns is a run with no end (40_execution_loop.md
R128 c): the machine stays at this instruction for ever (log entry 9). -/
def execSys (k : Operand) (s : State) : Host.Outcome State Fault Refusal :=
  match s.handlers[uint (s.value k)]? with
  | none => .next (s.raise .noHandler s.pc)
  | some h =>
    match (s.past (.sys k)).handlerAnswer (uint (s.value k)) h with
    | .returns r => .next ((s.past (.sys k)).finishCall r)
    | .never => .next s

end Sys2Proof.Machine
end

