-- ==== Sys2Proof/Machine/Dispatch.lean ====
section
/-! DEFINITION. exec: one arm per instruction, each one call of its meaning. -/

namespace Sys2Proof.Machine

def exec (i : Instr) (s : State) : Host.Outcome State Fault Refusal :=
  match i with
  | .nop => Sys2Proof.Machine.execNop s
  | .sys k => Sys2Proof.Machine.execSys k s
  | .mov d a => Sys2Proof.Machine.execMov d a s
  | .add d a b => Sys2Proof.Machine.execAdd d a b s
  | .sub d a b => Sys2Proof.Machine.execSub d a b s
  | .mul d a b => Sys2Proof.Machine.execMul d a b s
  | .div d a b => Sys2Proof.Machine.execDiv d a b s
  | .cmp a b => Sys2Proof.Machine.execCmp a b s
  | .jmp t => Sys2Proof.Machine.execJmp t s
  | .jeq t => Sys2Proof.Machine.execJeq t s
  | .jne t => Sys2Proof.Machine.execJne t s
  | .jlt t => Sys2Proof.Machine.execJlt t s
  | .jgt t => Sys2Proof.Machine.execJgt t s
  | .bra t => Sys2Proof.Machine.execBra t s
  | .beq t => Sys2Proof.Machine.execBeq t s
  | .bne t => Sys2Proof.Machine.execBne t s
  | .blt t => Sys2Proof.Machine.execBlt t s
  | .bgt t => Sys2Proof.Machine.execBgt t s
  | .ret => Sys2Proof.Machine.execRet s
  | .alc d n => Sys2Proof.Machine.execAlc d n s
  | .fre p => Sys2Proof.Machine.execFre p s
  | .stb p o v => Sys2Proof.Machine.execStb p o v s
  | .ldb d p o => Sys2Proof.Machine.execLdb d p o s
  | .pix x y c => Sys2Proof.Machine.execPix x y c s
  | .cls c => Sys2Proof.Machine.execCls c s

end Sys2Proof.Machine
end

