-- ==== Sys2Proof/Machine/Loop.lean ====
section
/-! DEFINITION. The fetch-decode-dispatch loop (40_execution_loop.md R120-R126) in the state Running, the
start of a run, and the loading of an image. Step.lean calls these. -/

namespace Sys2Proof.Machine

/-- The image bytes from `pc` to `L`, which the decoder reads one by one (30_encoding.md R90). -/
def State.fetchBytes (s : State) : List Byte := s.img.drop s.pc

/-- One step of a Running block: the halt check (R121), then decode and dispatch (R123), or the fault
of what the decoder rejects (R86, R90-R92). -/
def runningStep (s : State) : Host.Outcome State Fault Refusal :=
  if s.img.length ≤ s.pc then .next s.halt
  else
    match decode s.cfg s.fetchBytes with
    | .ok (i, _) => exec i s
    | .error e => .next (s.raise (faultOfDecode e) s.pc)

/-- `run()` moves `rstate` from Ready to Running (10_state.md R28). -/
def State.beginRun (s : State) : State := { s with rstate := .running }

/-- `load(bytes)`: `img` and `L`, `pc <- 0`, `rstate <- Ready`, nothing else
(70_reset_and_hazards.md R261). -/
def State.putImage (bytes : List Byte) (s : State) : State :=
  { s with img := bytes, pc := 0, rstate := .ready }

/-- Load an image that begins with one opcode-table word, and begin the run (log entry 11). -/
def State.putTableWord (nbits w : Nat) (s : State) : State :=
  (s.putImage (tableBytes nbits w)).beginRun

end Sys2Proof.Machine
end

