-- ==== Sys2Proof/Machine/Step.lean ====
section
/-! DEFINITION. step: one step of the block, by its run state (40_execution_loop.md R120, R125). -/

namespace Sys2Proof.Machine

/-- Ready: the run begins, and no instruction runs yet (log entry 11). Running: R121-R123.
Halted and Faulted are terminal (R125): no next state (log entry 12). -/
def step (s : State) : Host.Outcome State Fault Refusal :=
  match s.rstate with
  | .ready => .next s.beginRun
  | .running => runningStep s
  | .halted => .refused .runHalted
  | .faulted => .fault (.runFaulted s.fault)

/-- `s` with an opcode-table word placed so that the very next step runs it: the image holds the word
at offset 0, `pc` is 0, and the run has begun (log entry 11). -/
def State.withFetchWord (s : State) (nbits w : Nat) : State := s.putTableWord nbits w

end Sys2Proof.Machine
end

