-- ==== Sys2Proof/Machine/Assembler.lean ====
section
/-! DEFINITION. The reference assembler of 30_encoding.md section 4 (R100-R111): toolchain software beside
the block (00_scope.md R5), modelled so that programs can be written in the spec's own syntax. Text is
a list of characters. Log entries 21, 25 and 26 name what it fixes. -/

namespace Sys2Proof.Machine

/-- Source text, or one token of it. -/
abbrev Text := List Char

/-- Why assembly fails (R101, R104, R106, R107, R109). -/
inductive AsmError where
  /-- strict mode: a token that is none of R102's classes -/
  | unrecognised (token : Text)
  /-- strict mode: a label name defined twice (R101, log entry 25) -/
  | duplicateLabel (name : Text)
  /-- strict mode: a label name that begins with `#`, `$` or `@`, or is `/` (R101) -/
  | badLabelName (name : Text)
  /-- strict mode: a `#` value outside −32768..65535 (R104), or an `@` index outside 0..15 (R106) -/
  | valueOutOfRange (token : Text)
  /-- strict mode: a label's value exceeds 65535 (R107, log entry 25) -/
  | labelTooBig (name : Text)
deriving DecidableEq, Repr

/-! ## Tokens (R100) -/

/-- Whitespace within a line. -/
def isBlank (c : Char) : Bool := c == ' ' || c == '\t' || c == '\r'

/-- Split at line feeds. -/
def linesOf : Text → List Text
  | [] => [[]]
  | c :: cs =>
    if c == '\n' then [] :: linesOf cs
    else match linesOf cs with
      | [] => [[c]]
      | l :: ls => (c :: l) :: ls

/-- The whitespace-separated tokens of a line; `cur` is the token being read. -/
def tokensFrom (cur : Text) : Text → List Text
  | [] => if cur.isEmpty then [] else [cur]
  | c :: cs =>
    if isBlank c then
      if cur.isEmpty then tokensFrom [] cs else cur :: tokensFrom [] cs
    else tokensFrom (cur ++ [c]) cs

/-- The tokens of each line of a source text. -/
def tokenLines (src : Text) : List (List Text) := (linesOf src).map (tokensFrom [])

/-- Letter case is folded to lower case (R101, R103). -/
def foldCase (t : Text) : Text := t.map Char.toLower

/-- A line of the source: a label definition, or the tokens of a line that is none (R101, R102). -/
inductive SourceLine where
  | label (name : Text)
  | tokens (ts : List Text)
deriving DecidableEq, Repr

/-- R101: a line that is one token `name:` with a non-empty name defines the label `name`. The whole
line decides, with whatever a `/` on it would cut off. -/
def classifyLine : List Text → SourceLine
  | [t] =>
    if t.getLast? = some ':' ∧ 2 ≤ t.length then .label (foldCase t.dropLast) else .tokens [t]
  | ts => .tokens ts

/-- The name a line defines, if it defines one. -/
def labelOfLine : SourceLine → Option Text
  | .label n => some n
  | .tokens _ => none

/-! ## Numbers -/

/-- A non-empty string of decimal digits. -/
def digitsValue : Text → Option Nat
  | [] => none
  | ds => if ds.all Char.isDigit then
      some (ds.foldl (fun n c => n * 10 + (c.toNat - '0'.toNat)) 0)
    else none

/-- A decimal integer with an optional `-` sign (R104). -/
def decimalValue : Text → Option Int
  | '-' :: ds => (digitsValue ds).map fun n => -(n : Int)
  | ds => (digitsValue ds).map fun n => (n : Int)

/-! ## Classes of token (R102) -/

/-- The spelling of a mnemonic (R85, R103). -/
def Mnemonic.text : Mnemonic → Text
  | .nop => ['n', 'o', 'p'] | .sys => ['s', 'y', 's'] | .mov => ['m', 'o', 'v']
  | .add => ['a', 'd', 'd'] | .sub => ['s', 'u', 'b'] | .mul => ['m', 'u', 'l']
  | .div => ['d', 'i', 'v'] | .cmp => ['c', 'm', 'p'] | .jmp => ['j', 'm', 'p']
  | .jeq => ['j', 'e', 'q'] | .jne => ['j', 'n', 'e'] | .jlt => ['j', 'l', 't']
  | .jgt => ['j', 'g', 't'] | .bra => ['b', 'r', 'a'] | .beq => ['b', 'e', 'q']
  | .bne => ['b', 'n', 'e'] | .blt => ['b', 'l', 't'] | .bgt => ['b', 'g', 't']
  | .ret => ['r', 'e', 't'] | .alc => ['a', 'l', 'c'] | .fre => ['f', 'r', 'e']
  | .stb => ['s', 't', 'b'] | .ldb => ['l', 'd', 'b'] | .pix => ['p', 'i', 'x']
  | .cls => ['c', 'l', 's']

/-- The mnemonic a token spells, in any letter case (R103). -/
def mnemonicOfText (t : Text) : Option Mnemonic :=
  Mnemonic.all.find? fun m => Mnemonic.text m == foldCase t

/-- One thing the assembler goes over: a label definition, bytes to emit, or a label reference. -/
inductive AsmItem where
  | label (name : Text)
  | bytes (bs : List Byte)
  | ref (name : Text)
deriving DecidableEq, Repr

/-- The three bytes of an immediate-short operand (R81, R104). -/
def imm16Bytes (cfg : Config) (v : Word) : List Byte := [cfg.tagImm16, lowByte v, highByte v]

/-- A token that is none of R102's classes: an error, or dropped (R109). -/
def unrecognisedToken (strict : Bool) (t : Text) : Except AsmError AsmItem :=
  if strict then .error (.unrecognised t) else .ok (.bytes [])

/-- `#v` (R104). -/
def immediateToken (cfg : Config) (strict : Bool) (t v : Text) : Except AsmError AsmItem :=
  match decimalValue v with
  | none => unrecognisedToken strict t
  | some n =>
    if strict && !(decide (-32768 ≤ n ∧ n ≤ 65535)) then .error (.valueOutOfRange t)
    else .ok (.bytes (imm16Bytes cfg (wrap16 n)))

/-- `$v` (R105): a bare literal, or the immediate-short form where the byte is a tag. -/
def byteToken (cfg : Config) (strict : Bool) (t v : Text) : Except AsmError AsmItem :=
  match decimalValue v with
  | none => unrecognisedToken strict t
  | some n =>
    let b : Byte := BitVec.ofInt 8 n
    if b = cfg.tagReg ∨ b = cfg.tagImm16 then .ok (.bytes (imm16Bytes cfg (zext16 b)))
    else .ok (.bytes [b])

/-- `@n` (R106). -/
def registerToken (cfg : Config) (strict : Bool) (t v : Text) : Except AsmError AsmItem :=
  match decimalValue v with
  | none => unrecognisedToken strict t
  | some n =>
    if strict && !(decide (0 ≤ n ∧ n ≤ 15)) then .error (.valueOutOfRange t)
    else .ok (.bytes [cfg.tagReg, BitVec.ofInt 8 n])

/-- A token on a line that is not a label line, classified in R102's order; the terminator is dealt
with before. -/
def itemOfToken (cfg : Config) (strict : Bool) (names : List Text) (t : Text) :
    Except AsmError AsmItem :=
  if names.contains (foldCase t) then .ok (.ref (foldCase t))
  else
    match mnemonicOfText t with
    | some m => .ok (.bytes [cfg.opcode m])
    | none =>
      match t with
      | '#' :: v => immediateToken cfg strict t v
      | '$' :: v => byteToken cfg strict t v
      | '@' :: v => registerToken cfg strict t v
      | _ => unrecognisedToken strict t

/-! ## The lines before the terminator (R108) -/

/-- The tokens of a line before a lone `/`, and whether one was met. A label named `/` (non-strict
mode only) is a label reference first (R102). -/
def cutLine (names : List Text) : List Text → List Text × Bool
  | [] => ([], false)
  | t :: ts =>
    if t = ['/'] ∧ names.contains t = false then ([], true)
    else let r := cutLine names ts; (t :: r.1, r.2)

/-- The lines up to the terminator; `names` are the labels defined so far. -/
def cutLines (names : List Text) : List SourceLine → List SourceLine
  | [] => []
  | .label n :: ls => .label n :: cutLines (n :: names) ls
  | .tokens ts :: ls =>
    let r := cutLine names ts
    if r.2 then [.tokens r.1] else .tokens r.1 :: cutLines names ls

/-- The errors of strict mode about label names (R101, 92_eei_decisions.md D29 d). -/
def checkLabels : List Text → Except AsmError Unit
  | [] => .ok ()
  | n :: ns =>
    if ns.contains n then .error (.duplicateLabel n)
    else if n == ['/'] || ['#', '$', '@'].contains (n.headD ' ') then .error (.badLabelName n)
    else checkLabels ns

/-- The error of strict mode about label values (R107, D29 d). -/
def checkValues : List (Text × Nat) → Except AsmError Unit
  | [] => .ok ()
  | e :: es => if 65535 < e.2 then .error (.labelTooBig e.1) else checkValues es

/-- A check that strict mode makes and the other mode leaves out. -/
def whenStrict (strict : Bool) (check : Except AsmError Unit) : Except AsmError Unit :=
  if strict then check else .ok ()

/-! ## The two passes (R107, R110) -/

/-- The items of one line. -/
def itemsOfTokens (cfg : Config) (strict : Bool) (names : List Text) :
    List Text → Except AsmError (List AsmItem)
  | [] => .ok []
  | t :: ts =>
    match itemOfToken cfg strict names t with
    | .error e => .error e
    | .ok i =>
      match itemsOfTokens cfg strict names ts with
      | .error e => .error e
      | .ok is => .ok (i :: is)

/-- The items of all lines, in order. -/
def itemsOfLines (cfg : Config) (strict : Bool) (names : List Text) :
    List SourceLine → Except AsmError (List AsmItem)
  | [] => .ok []
  | .label n :: ls =>
    match itemsOfLines cfg strict names ls with
    | .error e => .error e
    | .ok is => .ok (.label n :: is)
  | .tokens ts :: ls =>
    match itemsOfTokens cfg strict names ts with
    | .error e => .error e
    | .ok is =>
      match itemsOfLines cfg strict names ls with
      | .error e => .error e
      | .ok js => .ok (is ++ js)

/-- The bytes an item emits (R110). -/
def AsmItem.size : AsmItem → Nat
  | .label _ => 0
  | .bytes bs => bs.length
  | .ref _ => 3

/-- Pass 1 (R110): the value of each label, from the exact number of bytes emitted before it. -/
def labelTable : Nat → List AsmItem → List (Text × Nat)
  | _, [] => []
  | off, .label n :: is => (n, off) :: labelTable off is
  | off, i :: is => labelTable (off + i.size) is

/-- Pass 2 (R107): the bytes, with each reference replaced by its label's value modulo 65536. Of a name
defined twice (not in strict mode) the first definition counts (log entry 26). -/
def emit (cfg : Config) (table : List (Text × Nat)) : List AsmItem → Except AsmError (List Byte)
  | [] => .ok []
  | .label _ :: is => emit cfg table is
  | .bytes bs :: is =>
    match emit cfg table is with
    | .error e => .error e
    | .ok rest => .ok (bs ++ rest)
  | .ref n :: is =>
    match table.lookup n with
    | none => .error (.unrecognised n)
    | some v =>
      match emit cfg table is with
      | .error e => .error e
      | .ok rest => .ok (imm16Bytes cfg (BitVec.ofNat 16 v) ++ rest)

/-- Assemble a source text to the bytes of an image (R100-R111), in the mode that the parameter
`ASM_STRICT` gives (00_scope.md R8, R109). Arity is not checked (R111). -/
def assemble (cfg : Config) (src : Text) : Except AsmError (List Byte) :=
  let lines := cutLines [] ((tokenLines src).map classifyLine)
  let names := lines.filterMap labelOfLine
  match whenStrict cfg.asmStrict (checkLabels names) with
  | .error e => .error e
  | .ok _ =>
    match itemsOfLines cfg cfg.asmStrict names lines with
    | .error e => .error e
    | .ok items =>
      match whenStrict cfg.asmStrict (checkValues (labelTable 0 items)) with
      | .error e => .error e
      | .ok _ => emit cfg (labelTable 0 items) items

end Sys2Proof.Machine
end

