-- ==== Sys2Proof/Machine/HostPort.lean ====
section
/-! DEFINITION. What the host does to the block from outside, in the order of 70_reset_and_hazards.md R262
(create is `State.create`), what a run reports to it (40_execution_loop.md R124, 60_exceptions.md
R237), and the step observer (R122, R250). -/

namespace Sys2Proof.Machine

/-- `register_handler` (41_system.md R143): appends; rejected, changing nothing, with 256 registered;
handlers are registered before the first run. -/
def State.registerHandler (h : Handler) (s : State) : Host.Outcome State Fault Refusal :=
  if s.rstate ≠ .ready then .refused .runBegun
  else if syscallCap ≤ s.handlers.length then .refused .syscallTableFull
  else .next { s with handlers := s.handlers ++ [h] }

/-- `load(bytes)` (70_reset_and_hazards.md R261), for an image shorter than 2^`IP_BITS` bytes
(00_scope.md R8) and before the run has begun (92_eei_decisions.md D25). -/
def State.load (bytes : List Byte) (s : State) : Host.Outcome State Fault Refusal :=
  if s.rstate ≠ .ready then .refused .runBegun
  else if 2 ^ s.cfg.ipBits ≤ bytes.length then .refused .imageTooLong
  else .next (s.putImage bytes)

/-- `run()` moves Ready to Running (10_state.md R28); a second run is refused (D25). -/
def State.run (s : State) : Host.Outcome State Fault Refusal :=
  if s.rstate ≠ .ready then .refused .runBegun else .next s.beginRun

/-- What `run()` returns to the host (R124, R237): `x[0]` on a clean halt, the message and the address
on a fault. -/
inductive RunReport where
  | returned (x0 : Word)
  | faulted (message : String) (address : Nat)
deriving DecidableEq, Repr

/-- The report of a state a run has ended in; `none` before the end. -/
def State.report (s : State) : Option RunReport :=
  match s.rstate with
  | .halted => some (.returned (s.reg 0))
  | .faulted => s.fault.map fun f => .faulted f.1.message f.2
  | .ready => none
  | .running => none

/-- The state after at most `n` steps, stopping where no further step is taken. A host that wants a
bound on a run counts steps itself (R127). -/
def runSteps : Nat → State → State
  | 0, s => s
  | n + 1, s =>
    match step s with
    | .next t => runSteps n t
    | .fault _ => s
    | .refused _ => s

/-- What an attached step observer is shown in this step (R122): the whole state, after the halt check
and before the opcode fetch; nothing where the step halts. It can change nothing (R250), so `step`
does not mention it (log entry 16). -/
def State.observed (s : State) : Option State :=
  if s.rstate = .running ∧ s.pc < s.img.length then some s else none

end Sys2Proof.Machine
end

