-- ==== Sys2Proof/Safety.lean ====
section
/-! DEFINITION. The vocabulary of the statements: what holds of every state a run can reach, what an
instruction leaves unchanged, and which faults an instruction may raise. -/

namespace Sys2Proof.Machine

/-! ## The invariant -/

/-- The allocator's three invariants (10_state.md R34), and the size table's canonical form. -/
structure AllocInv (s : State) : Prop where
  /-- (a): a byte is marked exactly when some live allocation covers it -/
  marked : ∀ a, s.amap.testBit a = true ↔
    ∃ p n, keyGet s.stab p = some n ∧ p ≤ a ∧ a < p + n
  /-- (b): live ranges do not overlap -/
  disjoint : ∀ p n q m, keyGet s.stab p = some n → keyGet s.stab q = some m → p ≠ q →
    p + n ≤ q ∨ q + m ≤ p
  /-- (c): every entry has n ≥ 1 and lies inside the arena -/
  inside : ∀ p n, keyGet s.stab p = some n → 1 ≤ n ∧ p + n ≤ s.cfg.arenaSize
  /-- pointers strictly rise -/
  sorted : keysFrom 0 s.stab = true

/-- At most one comparison flag is set: none before the first CMP, one after it (R25). -/
def Flags.atMostOne (f : Flags) : Prop :=
  (f.eq = true → f.lt = false ∧ f.gt = false) ∧ (f.lt = true → f.eq = false ∧ f.gt = false) ∧
  (f.gt = true → f.eq = false ∧ f.lt = false)

/-- What every step keeps. -/
structure State.Inv (s : State) : Prop where
  /-- the parameters meet 00_scope.md R8 -/
  cfgValid : s.cfg.Valid
  /-- `L` < 2^`IP_BITS` (R8) -/
  imageFits : s.img.length < 2 ^ s.cfg.ipBits
  /-- `pc` fits its width: it never wraps (10_state.md R24) -/
  pcFits : s.pc < 2 ^ s.cfg.ipBits
  /-- depth is 0..256 (R30) -/
  stackDepth : s.cs.length ≤ callDepth
  /-- every entry is a byte offset into the image, or its end (R30, 43_control.md R185) -/
  stackInImage : ∀ v ∈ s.cs, v ≤ s.img.length
  /-- at most 256 handlers (R36) -/
  tableSize : s.handlers.length ≤ syscallCap
  /-- R25 -/
  flagsOk : s.flags.atMostOne
  /-- R34 -/
  alloc : AllocInv s
  /-- the arena's canonical form -/
  arenaWf : Memory.wf s.arena = true
  /-- the arena holds addresses 0..`ARENA_SIZE`−1 only (R35) -/
  arenaBelow : Memory.below s.cfg.arenaSize s.arena = true
  /-- the pixel buffers' canonical form -/
  pixelsWf : ∀ n : Fin 2, Memory.wf s.pbuf[n.val] = true
  /-- each buffer holds `DISPLAY_W × DISPLAY_H` bytes (R38) -/
  pixelsBelow : ∀ n : Fin 2, Memory.below s.cfg.pixels s.pbuf[n.val] = true
  /-- a fault record exactly in a Faulted run (R29) -/
  faultRecord : s.rstate = .faulted ↔ s.fault.isSome = true
  /-- every modelled run starts with the stack empty (R31) -/
  readyStackEmpty : s.rstate = .ready → s.cs = []

/-! ## Frames -/

/-- The parts of the state an instruction may change. -/
inductive Part where
  | regs | pc | flags | cs | allocator | arena | pixels | abuf | run | draws | calls
deriving DecidableEq, Repr

/-- `t` differs from `s` in the parts `ps` at most. The parameters, the image and the syscall table are
never among them (R39, 41_system.md R143). Memories are compared byte by byte. -/
structure UnchangedExcept (ps : List Part) (s t : State) : Prop where
  cfg : t.cfg = s.cfg
  img : t.img = s.img
  handlers : t.handlers = s.handlers
  regs : Part.regs ∉ ps → ∀ r, t.reg r = s.reg r
  pc : Part.pc ∉ ps → t.pc = s.pc
  flags : Part.flags ∉ ps → t.flags = s.flags
  cs : Part.cs ∉ ps → t.cs = s.cs
  amap : Part.allocator ∉ ps → t.amap = s.amap
  stab : Part.allocator ∉ ps → t.stab = s.stab
  arena : Part.arena ∉ ps → ∀ a, t.arenaByte a = s.arenaByte a
  pixels : Part.pixels ∉ ps → ∀ n i, t.pixel n i = s.pixel n i
  abuf : Part.abuf ∉ ps → t.abuf = s.abuf
  rstate : Part.run ∉ ps → t.rstate = s.rstate
  fault : Part.run ∉ ps → t.fault = s.fault
  draws : Part.draws ∉ ps → t.draws = s.draws
  calls : Part.calls ∉ ps → t.calls = s.calls

/-- The fault `k` was taken at `s.pc` and the instruction wrote nothing: every part of `t` but the run
state and the fault record is as in `s` (R126, R236). -/
structure FaultTaken (k : FaultKind) (s t : State) : Prop where
  rstate : t.rstate = .faulted
  fault : t.fault = some (k, s.pc)
  frame : UnchangedExcept [.run] s t

/-! ## Results -/

/-- Instruction `i` is written as the opcode byte of `m`, and then `body`, whatever the parameters
(30_encoding.md R83, R85). -/
structure Layout (i : Instr) (m : Mnemonic) (body : Config → List Byte) : Prop where
  mnemonic : i.mnemonic = m
  bytes : ∀ cfg, encode cfg i = cfg.opcode m :: body cfg

/-- The address of the next instruction in sequence, by the length of the encoding (R23). -/
def nextAddress (i : Instr) (s : State) : Nat := s.pc + (encode s.cfg i).length

/-- `i` completes in `s`: it writes register `d` a value with property `v`, goes on to the next
instruction, and changes nothing else but the parts `more`. -/
def WritesRegister (i : Instr) (d : RegIdx) (v : Word → Prop) (more : List Part) (s : State) :
    Prop :=
  ∃ t, exec i s = .next t ∧ v (t.reg d) ∧ (∀ r, r ≠ d → t.reg r = s.reg r) ∧
    t.pc = nextAddress i s ∧ UnchangedExcept (.regs :: .pc :: more) s t

/-- `i` completes in `s`: it jumps to the unsigned value of `a` if `taken`, else goes on to the next
instruction, and changes nothing but `pc`. -/
def JumpsWhen (i : Instr) (a : Operand) (taken : Prop) (s : State) : Prop :=
  ∃ t, exec i s = .next t ∧ (taken → t.pc = uint (s.value a)) ∧
    (¬ taken → t.pc = nextAddress i s) ∧ UnchangedExcept [.pc] s t

/-- The link rule of 43_control.md R185. Taken with room on the stack: the address after the operand
is pushed and `pc` is the target. Taken with 256 entries: CallStackOverflow. Not taken: the next
instruction, nothing pushed, whatever the depth. -/
def LinksWhen (i : Instr) (a : Operand) (taken : Prop) (s : State) : Prop :=
  (taken → s.cs.length < 256 → ∃ t, exec i s = .next t ∧ t.cs = s.cs ++ [nextAddress i s] ∧
    t.pc = uint (s.value a) ∧ UnchangedExcept [.pc, .cs] s t) ∧
  (taken → s.cs.length = 256 → ∃ t, exec i s = .next t ∧ FaultTaken .callStackOverflow s t) ∧
  (¬ taken → ∃ t, exec i s = .next t ∧ t.pc = nextAddress i s ∧ UnchangedExcept [.pc] s t)

/-- The `n` bytes from `p` on lie inside the arena and are free (20_memory.md R60). -/
def FreeRun (s : State) (p n : Nat) : Prop :=
  p + n ≤ s.cfg.arenaSize ∧ ∀ a, p ≤ a → a < p + n → s.amap.testBit a = false

/-- The value the last of a list of writes gives to key `k`, if any does. -/
def lastWrite {κ α : Type} [DecidableEq κ] (ws : List (κ × α)) (k : κ) : Option α :=
  (ws.reverse.find? fun w => decide (w.1 = k)).map Prod.snd

/-- The shortest and the longest encoding of each format, by mnemonic (30_encoding.md R83). -/
def formatLengths (m : Mnemonic) : Nat × Nat :=
  match m with
  | .nop | .ret => (1, 1)
  | .sys | .jmp | .jeq | .jne | .jlt | .jgt | .bra | .beq | .bne | .blt | .bgt | .fre | .cls =>
    (2, 4)
  | .cmp => (3, 7)
  | .stb | .pix => (4, 10)
  | .mov | .alc => (4, 6)
  | .add | .sub | .mul | .div | .ldb => (5, 9)

/-! ## Which faults an instruction raises -/

/-- The "raised by" column of 60_exceptions.md R231, for the faults an instruction raises after its
operands are decoded. -/
def mayRaise (i : Instr) : List FaultKind :=
  match i with
  | .div _ _ _ => [.divisionByZero]
  | .alc _ _ => [.badAllocSize, .outOfMemory]
  | .fre _ => [.invalidFree]
  | .stb _ _ _ | .ldb _ _ _ => [.memoryNotAllocated]
  | .sys _ => [.noHandler]
  | .bra _ | .beq _ | .bne _ | .blt _ | .bgt _ => [.callStackOverflow]
  | .ret => [.callStackUnderflow]
  | .pix _ _ _ => [.pixelOutOfBounds]
  | .nop | .mov _ _ | .add _ _ _ | .sub _ _ _ | .mul _ _ _ | .cmp _ _
  | .jmp _ | .jeq _ | .jne _ | .jlt _ | .jgt _ | .cls _ => []

end Sys2Proof.Machine
end

