-- ==== Sys2Proof/Certificates/Slice0/Obligations.lean ====
section
/-! DEFINITION. The statements for the provers, from the numbered rules of spec/. A docstring names the
rule; where a clause rests on a decision the spec marks as its own (D<n> of 92_eei_decisions.md) or on a
log entry, it says so. -/

open Sys2Proof Sys2Proof.Machine

/-! ## Encoding -/

/-- 30_encoding.md R93: the spec's worked encodings decode to the instructions they stand for. -/
def Obligations.WorkedEncodingsDecode : Prop :=
  decode Config.default [0x02, 0xFE, 0x00, 0xFF, 0x05, 0x00] = .ok (.mov 0 (.imm16 5), []) ∧
  decode Config.default [0x03, 0xFE, 0x02, 0xFE, 0x00, 0xFE, 0x01] =
    .ok (.add 2 (.reg 0) (.reg 1), []) ∧
  decode Config.default [0x01, 0xFF, 0x00, 0x00] = .ok (.sys (.imm16 0), []) ∧
  decode Config.default [0x15, 0xFE, 0x00, 0xFF, 0x00, 0x00, 0x41] =
    .ok (.stb (.reg 0) (.imm16 0) (.lit 65), []) ∧
  decode Config.default [0x09, 0xFF, 0x15, 0x00] = .ok (.jeq (.imm16 21), []) ∧
  decode Config.default [0x12] = .ok (.ret, [])

/-- R85, 00_scope.md R8: the default opcode byte of each instruction, the default tags and the other
defaults. They are the spec's decisions D1, D2, D9, D10, D29 and D32 (log entry 23). -/
def Obligations.DefaultParameters : Prop :=
  (∀ e ∈ [(Mnemonic.nop, (0x00 : Byte)), (.sys, 0x01), (.mov, 0x02), (.add, 0x03), (.sub, 0x04),
      (.mul, 0x05), (.div, 0x06), (.cmp, 0x07), (.jmp, 0x08), (.jeq, 0x09), (.jne, 0x0A),
      (.jlt, 0x0B), (.jgt, 0x0C), (.bra, 0x0D), (.beq, 0x0E), (.bne, 0x0F), (.blt, 0x10),
      (.bgt, 0x11), (.ret, 0x12), (.alc, 0x13), (.fre, 0x14), (.stb, 0x15), (.ldb, 0x16),
      (.pix, 0x17), (.cls, 0x18)], Config.default.opcode e.1 = e.2) ∧
  Config.default.tagReg = 0xFE ∧ Config.default.tagImm16 = 0xFF ∧
  Config.default.arenaSize = 16000 ∧ Config.default.divOvf = 0x8000 ∧
  Config.default.ipBits = 32 ∧ Config.default.asmStrict = true ∧
  callDepth = 256 ∧ syscallCap = 256 ∧ Config.default.Valid

/-- R81, R83, R85, R91, R92: under any valid parameters, decoding the encoding of a well-formed
instruction gives the instruction back, every operand at every value its form admits, and leaves what
follows. -/
def Obligations.DecodeOfEncodeIsIdentity : Prop :=
  ∀ cfg i rest, cfg.Valid → i.wf cfg = true → decode cfg (encode cfg i ++ rest) = .ok (i, rest)

/-- R81, R83, R87, R91, R92: what decodes is well-formed and its encoding is exactly the bytes that were
read, so every sequence of bytes has at most one meaning and no instruction has two encodings. -/
def Obligations.DecodedBytesAreTheEncoding : Prop :=
  ∀ cfg bs i rest, decode cfg bs = .ok (i, rest) →
    i.wf cfg = true ∧ bs = encode cfg i ++ rest

/-- R86: with the default map the illegal opcode bytes are 0x19 to 0xFF, and under any parameters a
running block whose next byte is no opcode faults UnknownOpcode at `start`. -/
def Obligations.IllegalOpcodeFaults : Prop :=
  (∀ b : Byte, (∀ m, Config.default.opcode m ≠ b) ↔ 0x19 ≤ b.toNat) ∧
  ∀ s b rest, s.rstate = .running → s.img.drop s.pc = b :: rest →
    (∀ m, s.cfg.opcode m ≠ b) → ∃ t, step s = .next t ∧ FaultTaken .unknownOpcode s t

/-- R82, R92: in each of the seven instructions with a destination, a first operand byte other than
`TAG_REG` faults ExpectedRegister, and an index byte above 15 after `TAG_REG` faults InvalidRegister. -/
def Obligations.DestinationMustBeRegister : Prop :=
  ∀ cfg m b rest, cfg.Valid → m ∈ [Mnemonic.mov, .add, .sub, .mul, .div, .alc, .ldb] →
    (b ≠ cfg.tagReg → decode cfg (cfg.opcode m :: b :: rest) = .error .expectedRegister) ∧
    (16 ≤ b.toNat →
      decode cfg (cfg.opcode m :: cfg.tagReg :: b :: rest) = .error .invalidRegister)

/-- R81, R88, R91: what each operand form reads as. The zero extension of a bare literal is the
spec's decision D4, InvalidRegister its decision D5. -/
def Obligations.OperandFormsAndValues : Prop :=
  ∀ (cfg : Config) (s : State) (b lo hi : Byte) (rest : List Byte), cfg.Valid →
    (∀ i : RegIdx, b.toNat = i.val →
      readOperand cfg (cfg.tagReg :: b :: rest) = .ok (.reg i, rest) ∧
      s.value (.reg i) = s.reg i) ∧
    (16 ≤ b.toNat → readOperand cfg (cfg.tagReg :: b :: rest) = .error .invalidRegister) ∧
    (∃ v, readOperand cfg (cfg.tagImm16 :: lo :: hi :: rest) = .ok (.imm16 v, rest) ∧
      uint (s.value (.imm16 v)) = hi.toNat * 256 + lo.toNat) ∧
    (b ≠ cfg.tagReg → b ≠ cfg.tagImm16 → readOperand cfg (b :: rest) = .ok (.lit b, rest) ∧
      uint (s.value (.lit b)) = b.toNat)

/-- R84, R90: an encoding cut off anywhere after its opcode byte faults TruncatedInstruction. The fault
is the spec's decision D6. -/
def Obligations.TruncatedEncodingFaults : Prop :=
  ∀ cfg i n, cfg.Valid → i.wf cfg = true → 1 ≤ n → n < (encode cfg i).length →
    decode cfg ((encode cfg i).take n) = .error .truncated

/-- R83: the length of an instruction is 1, plus 2 for a destination, plus 1 to 3 for each source
operand, and lies in the range of its format. -/
def Obligations.EncodingLengthByFormat : Prop :=
  ∀ cfg i, (encode cfg i).length =
      1 + (if i.dest?.isSome then 2 else 0) +
        (i.sources.map fun a => (a.bytes cfg).length).sum ∧
    (∀ a : Operand, 1 ≤ (a.bytes cfg).length ∧ (a.bytes cfg).length ≤ 3) ∧
    (formatLengths i.mnemonic).1 ≤ (encode cfg i).length ∧
    (encode cfg i).length ≤ (formatLengths i.mnemonic).2

/-! ## The loop -/

/-- 40_execution_loop.md R123: when the bytes at `pc` decode to an instruction, a step of a running
block is `exec` of it in that state; `exec` is given `pc = start` and moves past the operands
itself. -/
def Obligations.StepRunsTheDecodedInstruction : Prop :=
  ∀ s i rest, s.rstate = .running → decode s.cfg (s.img.drop s.pc) = .ok (i, rest) →
    step s = exec i s

/-- R123 with 30_encoding.md R81-R85: when the bytes at `pc` are the encoding of a well-formed
instruction, a step of a running block is `exec` of it. -/
def Obligations.StepRunsTheEncodedInstruction : Prop :=
  ∀ s i rest, s.cfg.Valid → s.rstate = .running → i.wf s.cfg = true →
    s.img.drop s.pc = encode s.cfg i ++ rest → step s = exec i s

/-- R121, R124: at or past the end of the image the run halts, nothing else changes, and the report
is `x[0]`. -/
def Obligations.PastImageHalts : Prop :=
  ∀ s, s.rstate = .running → s.img.length ≤ s.pc →
    ∃ t, step s = .next t ∧ t.rstate = .halted ∧ t.fault = s.fault ∧
      t.report = some (.returned (s.reg 0)) ∧ UnchangedExcept [.run] s t

/-- R120: a step from Running is never refused and never stops the model: it ends Running, Halted, or
Faulted with a record. The record's address `start` is the spec's decision D7 (log entries 13 and 24);
that a handler which never returns leaves a next state, the same one, is log entry 9. -/
def Obligations.RunningStepHasNextState : Prop :=
  ∀ s, s.rstate = .running → ∃ t, step s = .next t ∧
    (t.rstate = .running ∨ t.rstate = .halted ∨
      (t.rstate = .faulted ∧ ∃ k, t.fault = some (k, s.pc)))

/-- R125: the state machine of a run, Ready, Running, then Halted or Faulted, and no step from
either. -/
def Obligations.RunStateMachine : Prop :=
  ∀ s t, step s = .next t →
    (s.rstate = .ready ∧ t.rstate = .running) ∨
    (s.rstate = .running ∧ (t.rstate = .running ∨ t.rstate = .halted ∨ t.rstate = .faulted))

/-- R126, 60_exceptions.md R232, R236, R237: a step that ends Faulted writes nothing but the run state
and the fault record, whose address is `start`; the report is the message and `start`.
`pc = start` is the spec's decision D7. -/
def Obligations.FaultingStepWritesOnlyTheRecord : Prop :=
  ∀ s t, s.rstate = .running → step s = .next t → t.rstate = .faulted →
    ∃ k, FaultTaken k s t ∧ t.report = some (.faulted k.message s.pc)

/-- R231, the table's "raised by" column: after decoding, an instruction raises only the faults the
table gives it, and a fault of `exec` is at `pc`. That the record's address is `start` is the spec's
decision D7 (log entry 24). -/
def Obligations.InstructionRaisesOnlyItsFaults : Prop :=
  ∀ i s t, s.rstate = .running → exec i s = .next t → t.rstate = .faulted →
    ∃ k, k ∈ mayRaise i ∧ t.fault = some (k, s.pc)

/-- R89, R233: a decoder fault is taken before any check of the instruction's own, with the code of
R231. -/
def Obligations.DecoderFaultIsTakenFirst : Prop :=
  ∀ s e, s.rstate = .running → s.pc < s.img.length → decode s.cfg (s.img.drop s.pc) = .error e →
    ∃ t k, step s = .next t ∧ FaultTaken k s t ∧
      (e = .truncated → k.code = 10) ∧ (e = .unknownOpcode → k.code = 1) ∧
      (e = .expectedRegister → k.code = 2) ∧ (e = .invalidRegister → k.code = 9)

/-- 43_control.md R180's corner case and R127: a jump to its own start is a step to the same state, and
any number of steps, none of them a stop, ends there. Targets are unsigned by the spec's decision
D8. -/
def Obligations.SelfJumpRunsForEver : Prop :=
  ∀ s a rest, s.rstate = .running →
    decode s.cfg (s.img.drop s.pc) = .ok (.jmp a, rest) → uint (s.value a) = s.pc →
    step s = .next s ∧ ∀ n, Sys2Proof.core.run n s = .next s

/-! ## NOP and SYS -/

/-- 41_system.md R140: NOP only advances. -/
def Obligations.NopOnlyAdvances : Prop :=
  ∀ s, Layout .nop .nop (fun _ => []) ∧
    ∃ t, exec .nop s = .next t ∧ t.pc = s.pc + 1 ∧ UnchangedExcept [.pc] s t

/-- R141: an ordinal at or past `NH`, read as unsigned (the spec's decision D21), faults NoHandler. -/
def Obligations.SysWithoutHandlerFaults : Prop :=
  ∀ s k, s.handlers.length ≤ uint (s.value k) →
    ∃ t, exec (.sys k) s = .next t ∧ FaultTaken .noHandler s t

/-- R141, R142: when the handler returns, with a listed answer or a free one, SYS completes: the
registers, arena bytes, pixels and selector are as the handler left them, `pc` is after the
instruction, and the run is Halted exactly if the status is not zero. A listed answer is the answer.
That a handler's answer is data in the table or a free value, and that writes outside the arena and
the buffers are dropped, are the model's own, log entries 8 and 10; that nothing else may be written
is the spec's decision D20, that `pc` stays after a halt request its decision D22. -/
def Obligations.SysAppliesTheHandlersWrites : Prop :=
  ∀ s k h, Layout (.sys k) .sys (fun c => k.bytes c) ∧
    (∀ a, h.answers[s.calls]? = some a →
      (s.past (.sys k)).handlerAnswer (uint (s.value k)) h = a) ∧
    ∀ r, s.handlers[uint (s.value k)]? = some h →
      (s.past (.sys k)).handlerAnswer (uint (s.value k)) h = .returns r →
      ∃ t, exec (.sys k) s = .next t ∧
        (∀ i, t.reg i = (lastWrite r.regs i).getD (s.reg i)) ∧
        (∀ a, a < s.cfg.arenaSize →
          t.arenaByte a = (lastWrite r.arena a).or (s.arenaByte a)) ∧
        (∀ a, s.cfg.arenaSize ≤ a → t.arenaByte a = s.arenaByte a) ∧
        (∀ n i, i < s.cfg.pixels → t.pixel n i =
          (lastWrite (r.pixels.map fun w => ((w.1, w.2.1), w.2.2)) (n, i)).or (s.pixel n i)) ∧
        (∀ n i, s.cfg.pixels ≤ i → t.pixel n i = s.pixel n i) ∧
        t.abuf = r.abuf.getD s.abuf ∧
        t.pc = nextAddress (.sys k) s ∧
        t.rstate = (if r.status = 0 then s.rstate else .halted) ∧ t.fault = s.fault ∧
        t.calls = s.calls + 1 ∧
        UnchangedExcept [.regs, .pc, .arena, .pixels, .abuf, .run, .calls] s t

/-- R142: whatever a handler answers, listed or free, SYS with an ordinal below `NH` leaves the flags,
the call stack, the allocator, the image, the syscall table and the fault record as they were, and
`pc` at the instruction or after it. The list is the spec's decision D20. -/
def Obligations.HandlerWritesOnlyWhatItMay : Prop :=
  ∀ s k t, uint (s.value k) < s.handlers.length → exec (.sys k) s = .next t →
    t.fault = s.fault ∧ (∀ a, s.cfg.arenaSize ≤ a → t.arenaByte a = s.arenaByte a) ∧
    (t.pc = s.pc ∨ t.pc = nextAddress (.sys k) s) ∧
    UnchangedExcept [.regs, .pc, .arena, .pixels, .abuf, .run, .calls] s t

/-- R128 (c), in the model's own form of it (log entries 8 and 9): a SYS whose handler never returns is
a step to the same state, and any number of steps, none of them a stop, ends there. -/
def Obligations.HandlerThatNeverReturnsHangs : Prop :=
  ∀ s k rest h, s.rstate = .running → decode s.cfg (s.img.drop s.pc) = .ok (.sys k, rest) →
    s.handlers[uint (s.value k)]? = some h →
    (s.past (.sys k)).handlerAnswer (uint (s.value k)) h = .never →
    step s = .next s ∧ ∀ n, Sys2Proof.core.run n s = .next s

/-- R143: before the run the host appends handlers in order of ordinal; with 256 registered, or once a
run has begun, the call is rejected and gives no new state; no step changes the table. That the model
refuses the call once a run has begun is log entry 15. -/
def Obligations.RegisterHandlerAppends : Prop :=
  (∀ (s : State) (h : Handler), s.rstate = .ready →
    (s.handlers.length < 256 → ∃ t, s.registerHandler h = .next t ∧
      t.handlers[s.handlers.length]? = some h ∧
      (∀ k, k < s.handlers.length → t.handlers[k]? = s.handlers[k]?) ∧
      t.handlers.length = s.handlers.length + 1 ∧ t = { s with handlers := t.handlers }) ∧
    (256 ≤ s.handlers.length → ∀ t, s.registerHandler h ≠ .next t)) ∧
  (∀ (s : State) (h : Handler), s.rstate ≠ .ready → ∀ t, s.registerHandler h ≠ .next t) ∧
  (∀ s t, step s = .next t → t.handlers = s.handlers)

/-! ## ALU -/

/-- 42_alu.md R160: MOV copies the operand's value to the destination, even onto itself. -/
def Obligations.MovCopiesTheValue : Prop :=
  ∀ s d a, Layout (.mov d a) .mov (fun c => destBytes c d ++ a.bytes c) ∧
    WritesRegister (.mov d a) d (fun v => v = s.value a) [] s

/-- R161: ADD modulo 2^16, no flag, no fault. -/
def Obligations.AddWraps : Prop :=
  ∀ s d a b, Layout (.add d a b) .add (fun c => destBytes c d ++ a.bytes c ++ b.bytes c) ∧
    WritesRegister (.add d a b) d
      (fun v => uint v = (uint (s.value a) + uint (s.value b)) % 65536) [] s

/-- R162: SUB modulo 2^16, the first source minus the second, no flag, no fault. -/
def Obligations.SubWraps : Prop :=
  ∀ s d a b, Layout (.sub d a b) .sub (fun c => destBytes c d ++ a.bytes c ++ b.bytes c) ∧
    WritesRegister (.sub d a b) d
      (fun v => (uint v : Int) = ((uint (s.value a) : Int) - uint (s.value b)) % 65536) [] s

/-- R163: MUL keeps the low 16 bits of the product, whichever way the operands are read. -/
def Obligations.MulKeepsLowHalf : Prop :=
  ∀ s d a b, Layout (.mul d a b) .mul (fun c => destBytes c d ++ a.bytes c ++ b.bytes c) ∧
    WritesRegister (.mul d a b) d
      (fun v => uint v = uint (s.value a) * uint (s.value b) % 65536 ∧
        (uint v : Int) = sint (s.value a) * sint (s.value b) % 65536) [] s

/-- R164: DIV. A zero divisor faults and writes nothing; −32768 ÷ −1 gives the parameter `DIV_OVF`;
else the quotient q with a = q·b + r, |r| < |b| and r of a's sign, which is truncation toward zero.
Signedness, truncation and `DIV_OVF` are the spec's decision D10 (log entry 20). -/
def Obligations.DivTruncatesTowardZero : Prop :=
  ∀ s d a b, Layout (.div d a b) .div (fun c => destBytes c d ++ a.bytes c ++ b.bytes c) ∧
    (uint (s.value b) = 0 →
      ∃ t, exec (.div d a b) s = .next t ∧ FaultTaken .divisionByZero s t) ∧
    (uint (s.value b) ≠ 0 → sint (s.value a) = -32768 → sint (s.value b) = -1 →
      WritesRegister (.div d a b) d (fun v => v = s.cfg.divOvf) [] s) ∧
    (uint (s.value b) ≠ 0 → ¬(sint (s.value a) = -32768 ∧ sint (s.value b) = -1) →
      WritesRegister (.div d a b) d
        (fun v => ∃ r, sint (s.value a) = sint v * sint (s.value b) + r ∧
          r.natAbs < (sint (s.value b)).natAbs ∧ 0 ≤ r * sint (s.value a)) [] s)

/-- R170: CMP writes all three flags by the signed order, and nothing else but `pc` changes. -/
def Obligations.CmpSetsFlagsBySignedOrder : Prop :=
  ∀ s a b, Layout (.cmp a b) .cmp (fun c => a.bytes c ++ b.bytes c) ∧
    ∃ t, exec (.cmp a b) s = .next t ∧
      (t.flags.eq = true ↔ sint (s.value a) = sint (s.value b)) ∧
      (t.flags.lt = true ↔ sint (s.value a) < sint (s.value b)) ∧
      (t.flags.gt = true ↔ sint (s.value b) < sint (s.value a)) ∧
      t.pc = nextAddress (.cmp a b) s ∧ UnchangedExcept [.flags, .pc] s t

/-- 10_state.md R25, R171: every instruction but CMP leaves the flags as they were, and every CMP leaves
exactly one set. That a handler writes no flag is the spec's decision D20; "exactly one" is R171's
inference. -/
def Obligations.OnlyCmpChangesFlags : Prop :=
  ∀ i s t, exec i s = .next t →
    ((∀ a b, i ≠ .cmp a b) → t.flags = s.flags) ∧
    (∀ a b, i = .cmp a b →
      t.flags.eq.toNat + t.flags.lt.toNat + t.flags.gt.toNat = 1)

/-! ## Control transfer -/

/-- 43_control.md R180: JMP, to the unsigned value of its operand (the spec's decision D8). -/
def Obligations.JmpSetsPc : Prop :=
  ∀ s a, Layout (.jmp a) .jmp (fun c => a.bytes c) ∧ JumpsWhen (.jmp a) a True s

/-- R181-R184, 10_state.md R26: each conditional jump is taken by its own flag alone, and else falls
through. Targets are unsigned by the spec's decision D8. -/
def Obligations.ConditionalJumpsFollowFlags : Prop :=
  ∀ s a,
    (Layout (.jeq a) .jeq (fun c => a.bytes c) ∧
      JumpsWhen (.jeq a) a (s.flags.eq = true) s) ∧
    (Layout (.jne a) .jne (fun c => a.bytes c) ∧
      JumpsWhen (.jne a) a (s.flags.eq = false) s) ∧
    (Layout (.jlt a) .jlt (fun c => a.bytes c) ∧
      JumpsWhen (.jlt a) a (s.flags.lt = true) s) ∧
    (Layout (.jgt a) .jgt (fun c => a.bytes c) ∧
      JumpsWhen (.jgt a) a (s.flags.gt = true) s)

/-- R185, R186: BRA pushes the address after its operand and jumps; with 256 entries it faults.
Targets are unsigned by the spec's decision D8. -/
def Obligations.BraPushesAndJumps : Prop :=
  ∀ s a, Layout (.bra a) .bra (fun c => a.bytes c) ∧ LinksWhen (.bra a) a True s

/-- R185, R187-R190: each conditional branch-and-link follows the link rule by its own flag alone.
Targets are unsigned by the spec's decision D8. -/
def Obligations.ConditionalBranchesLink : Prop :=
  ∀ s a,
    (Layout (.beq a) .beq (fun c => a.bytes c) ∧
      LinksWhen (.beq a) a (s.flags.eq = true) s) ∧
    (Layout (.bne a) .bne (fun c => a.bytes c) ∧
      LinksWhen (.bne a) a (s.flags.eq = false) s) ∧
    (Layout (.blt a) .blt (fun c => a.bytes c) ∧
      LinksWhen (.blt a) a (s.flags.lt = true) s) ∧
    (Layout (.bgt a) .bgt (fun c => a.bytes c) ∧
      LinksWhen (.bgt a) a (s.flags.gt = true) s)

/-- R192: RET sets `pc` to the last entry and removes it; on an empty stack it faults
CallStackUnderflow. -/
def Obligations.RetPopsTheStack : Prop :=
  ∀ s, Layout .ret .ret (fun _ => []) ∧
    (∀ below v, s.cs = below ++ [v] → ∃ t, exec .ret s = .next t ∧ t.pc = v ∧ t.cs = below ∧
      UnchangedExcept [.pc, .cs] s t) ∧
    (s.cs = [] → ∃ t, exec .ret s = .next t ∧ FaultTaken .callStackUnderflow s t)

/-- R193: a RET that finds the call stack as a taken branch-and-link left it resumes at the byte after
the branch's operand encoding, with the stack as before the branch; the branch and the RET save and
change no register and no flag. -/
def Obligations.ReturnResumesAfterTheBranch : Prop :=
  ∀ s t u i a, i ∈ [Instr.bra a, .beq a, .bne a, .blt a, .bgt a] →
    exec i s = .next t → t.cs ≠ s.cs → u.cs = t.cs →
    (∀ r, t.reg r = s.reg r) ∧ t.flags = s.flags ∧
    ∃ v, exec .ret u = .next v ∧ v.pc = s.pc + (encode s.cfg i).length ∧ v.cs = s.cs ∧
      UnchangedExcept [.pc, .cs] u v

/-! ## Allocator and arena -/

/-- 44_memory_ops.md R200, R201, 20_memory.md R60: ALC of a size that fits somewhere gives the lowest
address at which that many free bytes begin, marks exactly those bytes and records the block. The size
is unsigned by the spec's decision D11. -/
def Obligations.AlcReturnsLowestFit : Prop :=
  ∀ s d n, Layout (.alc d n) .alc (fun c => destBytes c d ++ n.bytes c) ∧
    (s.cfg.Valid → uint (s.value n) ≠ 0 → (∃ p, FreeRun s p (uint (s.value n))) →
      ∃ p t, FreeRun s p (uint (s.value n)) ∧ (∀ q, FreeRun s q (uint (s.value n)) → p ≤ q) ∧
        exec (.alc d n) s = .next t ∧ uint (t.reg d) = p ∧ (∀ r, r ≠ d → t.reg r = s.reg r) ∧
        (∀ a, t.amap.testBit a = true ↔
          s.amap.testBit a = true ∨ (p ≤ a ∧ a < p + uint (s.value n))) ∧
        (∀ q, keyGet t.stab q =
          if q = p then some (uint (s.value n)) else keyGet s.stab q) ∧
        t.pc = nextAddress (.alc d n) s ∧ UnchangedExcept [.regs, .pc, .allocator] s t)

/-- R200: ALC of size 0 faults BadAllocSize (the spec's decision D11), ALC of a size that fits nowhere
faults OutOfMemory. -/
def Obligations.AlcFaults : Prop :=
  ∀ s d n,
    (uint (s.value n) = 0 → ∃ t, exec (.alc d n) s = .next t ∧ FaultTaken .badAllocSize s t) ∧
    (uint (s.value n) ≠ 0 → (¬ ∃ p, FreeRun s p (uint (s.value n))) →
      ∃ t, exec (.alc d n) s = .next t ∧ FaultTaken .outOfMemory s t)

/-- R202, 20_memory.md R61: FRE of a live block's start unmarks exactly its bytes and removes its
record, leaving every byte's contents; of any other pointer it faults InvalidFree (the spec's decision
D12). -/
def Obligations.FreReleasesALiveBlock : Prop :=
  ∀ s p, Layout (.fre p) .fre (fun c => p.bytes c) ∧
    (∀ n, AllocInv s → keyGet s.stab (uint (s.value p)) = some n →
      ∃ t, exec (.fre p) s = .next t ∧
        (∀ a, t.amap.testBit a = true ↔
          s.amap.testBit a = true ∧ ¬(uint (s.value p) ≤ a ∧ a < uint (s.value p) + n)) ∧
        (∀ q, keyGet t.stab q = if q = uint (s.value p) then none else keyGet s.stab q) ∧
        t.pc = nextAddress (.fre p) s ∧ UnchangedExcept [.pc, .allocator] s t) ∧
    (keyGet s.stab (uint (s.value p)) = none →
      ∃ t, exec (.fre p) s = .next t ∧ FaultTaken .invalidFree s t)

/-- R34: ALC and FRE preserve the allocator's invariants (a), (b) and (c). -/
def Obligations.AllocatorKeepsItsInvariants : Prop :=
  ∀ s t, AllocInv s →
    (∀ d n, exec (.alc d n) s = .next t → AllocInv t) ∧
    (∀ p, exec (.fre p) s = .next t → AllocInv t)

/-- 20_memory.md R62: after a live block of n bytes is freed, an ALC of n bytes that comes immediately
after succeeds, with that pointer or a lower one. -/
def Obligations.FreedBlockCanBeAllocatedAgain : Prop :=
  ∀ s t p n, s.cfg.Valid → AllocInv s → keyGet s.stab (uint (s.value p)) = some n →
    exec (.fre p) s = .next t →
    ∀ e m, uint (t.value m) = n →
      ∃ u, exec (.alc e m) t = .next u ∧ u.rstate = t.rstate ∧ u.fault = t.fault ∧
        uint (u.reg e) ≤ uint (s.value p)

/-- 44_memory_ops.md R201: a block allocated and freed at once leaves the allocator exactly as it was,
and a second ALC of the same size gives the same pointer. -/
def Obligations.AllocateFreeAllocateRepeats : Prop :=
  ∀ s t d n, s.cfg.Valid → AllocInv s → s.rstate ≠ .faulted →
    exec (.alc d n) s = .next t → t.rstate ≠ .faulted →
    ∃ u, exec (.fre (.reg d)) t = .next u ∧ u.amap = s.amap ∧ u.stab = s.stab ∧
      ∀ e m, uint (u.value m) = uint (s.value n) →
        ∃ v, exec (.alc e m) u = .next v ∧ v.reg e = t.reg d

/-- R57: the address of STB and LDB is the 16-bit wrapping sum (the spec's decision D13), and it is
allocated when it is inside the arena and marked. -/
def Obligations.EffectiveAddressWraps : Prop :=
  ∀ (s : State) (p o : Word),
    effectiveAddress p o = (uint p + uint o) % 65536 ∧
    (0 ≤ (uint p : Int) + sint o → (uint p : Int) + sint o ≤ 65535 →
      (effectiveAddress p o : Int) = uint p + sint o) ∧
    (s.allocated (effectiveAddress p o) = true ↔
      effectiveAddress p o < s.cfg.arenaSize ∧ s.amap.testBit (effectiveAddress p o) = true)

/-- 44_memory_ops.md R204: STB to an allocated byte stores the low 8 bits there and nowhere else; to any
other address it faults MemoryNotAllocated. The address is that of `effectiveAddress` (R57). -/
def Obligations.StbStoresOneAllocatedByte : Prop :=
  ∀ s p o v, Layout (.stb p o v) .stb (fun c => p.bytes c ++ o.bytes c ++ v.bytes c) ∧
    (s.allocated (effectiveAddress (s.value p) (s.value o)) = true →
      ∃ t, exec (.stb p o v) s = .next t ∧
        (∃ b : Byte, b.toNat = uint (s.value v) % 256 ∧
          t.arenaByte (effectiveAddress (s.value p) (s.value o)) = some b) ∧
        (∀ a, a ≠ effectiveAddress (s.value p) (s.value o) → t.arenaByte a = s.arenaByte a) ∧
        t.pc = nextAddress (.stb p o v) s ∧ UnchangedExcept [.pc, .arena] s t) ∧
    (s.allocated (effectiveAddress (s.value p) (s.value o)) = false →
      ∃ t, exec (.stb p o v) s = .next t ∧ FaultTaken .memoryNotAllocated s t)

/-- R206, 20_memory.md R55: LDB of an allocated byte gives it zero-extended; of one never written, a
byte drawn afresh (whatever the free value is), and the draw is counted, so that the next one is
another; of any other address it faults. Operand order and
zero extension are the spec's decision D14, the draw its decision D15 (log entries 6 and 7). -/
def Obligations.LdbLoadsOneAllocatedByte : Prop :=
  ∀ s d p o, Layout (.ldb d p o) .ldb (fun c => destBytes c d ++ p.bytes c ++ o.bytes c) ∧
    (∀ b, s.allocated (effectiveAddress (s.value p) (s.value o)) = true →
      s.arenaByte (effectiveAddress (s.value p) (s.value o)) = some b →
      WritesRegister (.ldb d p o) d (fun v => uint v = b.toNat) [] s) ∧
    (s.allocated (effectiveAddress (s.value p) (s.value o)) = true →
      s.arenaByte (effectiveAddress (s.value p) (s.value o)) = none →
      ∃ t, exec (.ldb d p o) s = .next t ∧
        uint (t.reg d) =
          (Config.freeByte s.draws (effectiveAddress (s.value p) (s.value o))).toNat ∧
        (∀ r, r ≠ d → t.reg r = s.reg r) ∧ t.draws = s.draws + 1 ∧
        t.pc = nextAddress (.ldb d p o) s ∧ UnchangedExcept [.regs, .pc, .draws] s t) ∧
    (s.allocated (effectiveAddress (s.value p) (s.value o)) = false →
      ∃ t, exec (.ldb d p o) s = .next t ∧ FaultTaken .memoryNotAllocated s t)

/-! ## Display -/

/-- 45_display.md R220, R221: PIX inside the buffer writes the low 8 bits of the colour to the pixel of
row y and column x of the active buffer, and to no other. The signed reading of the coordinates and
the truncation are the spec's decision D16. -/
def Obligations.PixWritesOnePixel : Prop :=
  ∀ s x y c, Layout (.pix x y c) .pix (fun g => x.bytes g ++ y.bytes g ++ c.bytes g) ∧
    (s.cfg.Valid → 0 ≤ sint (s.value x) → sint (s.value x) < s.cfg.displayW →
      0 ≤ sint (s.value y) → sint (s.value y) < s.cfg.displayH →
      ∃ t i, ∃ b : Byte, exec (.pix x y c) s = .next t ∧
        i = uint (s.value y) * s.cfg.displayW + uint (s.value x) ∧ i < s.cfg.pixels ∧
        i % s.cfg.displayW = uint (s.value x) ∧ i / s.cfg.displayW = uint (s.value y) ∧
        b.toNat = uint (s.value c) % 256 ∧
        t.pixel s.abuf i = some b ∧
        (∀ n j, (n, j) ≠ (s.abuf, i) → t.pixel n j = s.pixel n j) ∧
        t.pc = nextAddress (.pix x y c) s ∧ UnchangedExcept [.pc, .pixels] s t)

/-- R220: a coordinate outside the buffer faults PixelOutOfBounds (the spec's decision D16). -/
def Obligations.PixOutsideFaults : Prop :=
  ∀ s x y c,
    (sint (s.value x) < 0 ∨ s.cfg.displayW ≤ sint (s.value x) ∨
      sint (s.value y) < 0 ∨ s.cfg.displayH ≤ sint (s.value y)) →
    ∃ t, exec (.pix x y c) s = .next t ∧ FaultTaken .pixelOutOfBounds s t

/-- R222: CLS fills the active buffer with the low 8 bits of the colour (the spec's decision D17) and
never touches the other buffer. -/
def Obligations.ClsFillsTheActiveBuffer : Prop :=
  ∀ s c, Layout (.cls c) .cls (fun g => c.bytes g) ∧
    ∃ t, ∃ b : Byte, exec (.cls c) s = .next t ∧ b.toNat = uint (s.value c) % 256 ∧
      (∀ i, i < s.cfg.displayW * s.cfg.displayH → t.pixel s.abuf i = some b) ∧
      (∀ i, s.cfg.displayW * s.cfg.displayH ≤ i → t.pixel s.abuf i = none) ∧
      (∀ n i, n ≠ s.abuf → t.pixel n i = s.pixel n i) ∧
      t.pc = nextAddress (.cls c) s ∧ UnchangedExcept [.pc, .pixels] s t

/-! ## Rules about the whole machine -/

/-- 20_memory.md R69: no step changes the image, whatever the instruction or handler; only a load
replaces it. With it the syscall table (41_system.md R143) and the parameters (log entry 1). -/
def Obligations.NoStepChangesTheImage : Prop :=
  ∀ s t, step s = .next t → t.img = s.img ∧ t.handlers = s.handlers ∧ t.cfg = s.cfg

/-- 10_state.md R21, R30, R32, R33, R35, R37, 20_memory.md R50: which instructions write which part of the
state. That a handler writes only what it may is the spec's decision D20; the counter of draws is the
model's own (log entry 7). -/
def Obligations.EachPartHasItsWriters : Prop :=
  ∀ i s t, exec i s = .next t →
    (∀ r, t.reg r ≠ s.reg r → i.dest? = some r ∨ i.mnemonic = .sys) ∧
    (t.cs ≠ s.cs → i.mnemonic ∈ [Mnemonic.bra, .beq, .bne, .blt, .bgt, .ret]) ∧
    ((t.amap ≠ s.amap ∨ t.stab ≠ s.stab) → i.mnemonic ∈ [Mnemonic.alc, .fre]) ∧
    (∀ a, t.arenaByte a ≠ s.arenaByte a → i.mnemonic ∈ [Mnemonic.stb, .sys]) ∧
    (∀ n j, t.pixel n j ≠ s.pixel n j → i.mnemonic ∈ [Mnemonic.pix, .cls, .sys]) ∧
    (t.abuf ≠ s.abuf → i.mnemonic = .sys) ∧
    (t.draws ≠ s.draws → i.mnemonic = .ldb)

/-- 20_memory.md R50 ("write only from the block"): no instruction but SYS, whose handler may read
everything, can observe a pixel buffer: with other contents in both buffers it does the same to every
other part of the state. -/
def Obligations.PixelBuffersAreWriteOnly : Prop :=
  ∀ i s t (q : Vector Memory 2), i.mnemonic ≠ .sys → exec i s = .next t →
    ∃ t', exec i { s with pbuf := q } = .next t' ∧ { t' with pbuf := t.pbuf } = t

/-- 70_reset_and_hazards.md R260: what `create()` leaves, for any parameters. `L = 0`, `pc = 0` and
`abuf = 0` are the spec's decisions D24 and D18, the unwritten arena its decision D15; that the pixel
buffers list nothing is log entry 22, the two counters log entries 7 and 8. -/
def Obligations.CreateLeavesTheResetValues : Prop :=
  State.reset = State.create Config.default ∧
  ∀ cfg, (∀ r, (State.create cfg).reg r = 0) ∧
    (State.create cfg).flags = { eq := false, lt := false, gt := false } ∧
    (State.create cfg).cs = [] ∧ (∀ a, (State.create cfg).amap.testBit a = false) ∧
    (State.create cfg).stab = [] ∧ (∀ a, (State.create cfg).arenaByte a = none) ∧
    (State.create cfg).img = [] ∧ (State.create cfg).pc = 0 ∧
    (State.create cfg).handlers = [] ∧ (State.create cfg).abuf = 0 ∧
    (∀ n i, (State.create cfg).pixel n i = none) ∧
    (State.create cfg).rstate = .ready ∧ (State.create cfg).fault = none ∧
    (State.create cfg).cfg = cfg

/-- R261, R262: before a run, `load` of an image that fits sets the image, `pc` and the run state and
nothing else, and then the first step begins the run at offset 0 (log entry 11). Once a run has begun a
load is refused (the spec's decision D25, log entry 15). -/
def Obligations.LoadSetsImageAndPc : Prop :=
  ∀ (s : State) (bytes : List Byte),
    (s.rstate = .ready → bytes.length < 2 ^ s.cfg.ipBits →
      ∃ t, s.load bytes = .next t ∧ t.img = bytes ∧ t.pc = 0 ∧ t.rstate = .ready ∧
        t = { s with img := bytes, pc := 0, rstate := .ready } ∧
        step t = .next { t with rstate := .running } ∧
        t.run = .next { t with rstate := .running }) ∧
    (s.rstate ≠ .ready → ∀ t, s.load bytes ≠ .next t ∧ s.run ≠ .next t)

/-- The invariant holds at reset, and at `create()` of any valid parameters. -/
def Obligations.ResetMeetsTheInvariant : Prop :=
  State.reset.Inv ∧ ∀ cfg, cfg.Valid → (State.create cfg).Inv

/-- Every step, from every state that meets the invariant, keeps it: `pc` and the call stack stay in
range (10_state.md R24, R30), the flags stay legal (R25), the allocator's three invariants hold (R34),
the memories stay canonical and bounded (R35, R38), and a fault record stands exactly in a Faulted
run (R29). -/
def Obligations.EveryStepKeepsTheInvariant : Prop :=
  ∀ s t, s.Inv → step s = .next t → t.Inv

/-- R262: what the host does before a run keeps the invariant: registering handlers, loading an image,
starting the run. -/
def Obligations.HostCallsKeepTheInvariant : Prop :=
  ∀ s t : State, s.Inv →
    (∀ h, s.registerHandler h = .next t → t.Inv) ∧
    (∀ bytes, s.load bytes = .next t → t.Inv) ∧
    (s.run = .next t → t.Inv)

/-! ## The assembler (toolchain) -/

/-- 30_encoding.md R102 (order of classes), R104-R106: a token that is no label name and begins with
`#`, `$` or `@` is classified by that character, and what it emits, for a decimal value in range, reads
back as an operand with the token's value, also where the `$` byte equals a tag. That a minus sign may
follow `$` is log entry 21; the ranges are the spec's decision D29. -/
def Obligations.AssembledOperandsHaveTheirValues : Prop :=
  ∀ (cfg : Config) (s : State) (strict : Bool) (names : List Text) (v : Text) (n : Int)
    (rest : List Byte), cfg.Valid → decimalValue v = some n →
    (names.contains (foldCase ('#' :: v)) = false → -32768 ≤ n → n ≤ 65535 →
      ∃ bs w, itemOfToken cfg strict names ('#' :: v) = .ok (.bytes bs) ∧
        readOperand cfg (bs ++ rest) = .ok (.imm16 w, rest) ∧ (uint w : Int) = n % 65536) ∧
    (names.contains (foldCase ('$' :: v)) = false →
      ∃ bs a, itemOfToken cfg strict names ('$' :: v) = .ok (.bytes bs) ∧
        readOperand cfg (bs ++ rest) = .ok (a, rest) ∧ (uint (s.value a) : Int) = n % 256) ∧
    (names.contains (foldCase ('@' :: v)) = false → 0 ≤ n → n ≤ 15 →
      ∃ bs r, itemOfToken cfg strict names ('@' :: v) = .ok (.bytes bs) ∧
        readOperand cfg (bs ++ rest) = .ok (.reg r, rest) ∧ (r.val : Int) = n)

/-- R101, R110: the value pass 1 gives a label is the number of bytes pass 2 emits before it (the
spec's decision D29). -/
def Obligations.LabelValueIsItsByteOffset : Prop :=
  ∀ (cfg : Config) (table : List (Text × Nat)) (before after : List AsmItem) (name : Text)
    (out : List Byte),
    emit cfg table before = .ok out →
    (name, out.length) ∈ labelTable 0 (before ++ .label name :: after)
end

