-- ==== Sys2Proof/Laws/Allocator.lean ====
section
/-! SUPPORT. The allocation map bit by bit, and what the first-fit scan answers. -/

namespace Sys2Proof.Machine

theorem testBit_runMask (p n a : Nat) :
    (runMask p n).testBit a = (decide (p ≤ a) && decide (a < p + n)) := by
  simp only [runMask, Nat.testBit_shiftLeft, Nat.testBit_two_pow_sub_one, ge_iff_le]
  by_cases h : p ≤ a
  · have : a - p < n ↔ a < p + n := by omega
    simp [h, this]
  · simp [h]

theorem testBit_markRun (m p n a : Nat) :
    (markRun m p n).testBit a = (m.testBit a || (decide (p ≤ a) && decide (a < p + n))) := by
  simp [markRun, Nat.testBit_or, testBit_runMask]

theorem testBit_clearRun (m p n a : Nat) :
    (clearRun m p n).testBit a = (m.testBit a && !(decide (p ≤ a) && decide (a < p + n))) := by
  simp only [clearRun, Nat.testBit_xor, Nat.testBit_and, testBit_runMask]
  cases m.testBit a <;> simp

/-- A run is free exactly when none of its bytes is marked. -/
theorem runFree_iff (m p n : Nat) :
    runFree m p n = true ↔ ∀ a, p ≤ a → a < p + n → m.testBit a = false := by
  simp only [runFree, beq_iff_eq]
  constructor
  · intro h a h1 h2
    have := congrArg (fun x => Nat.testBit x a) h
    simpa [Nat.testBit_and, testBit_runMask, h1, h2] using this
  · intro h
    refine Nat.eq_of_testBit_eq fun a => ?_
    simp only [Nat.testBit_and, testBit_runMask, Nat.zero_testBit, Bool.and_eq_false_iff,
      decide_eq_false_iff_not]
    by_cases h1 : p ≤ a
    · by_cases h2 : a < p + n
      · exact .inl (h a h1 h2)
      · exact .inr (.inr h2)
    · exact .inr (.inl h1)

/-- The scan answers the lowest address that fits, if one of its tries does. -/
theorem firstFitFrom_some {m n : Nat} : ∀ {tries q p : Nat},
    firstFitFrom m n tries q = some p ↔
      q ≤ p ∧ p < q + tries ∧ runFree m p n = true ∧ ∀ r, q ≤ r → r < p → runFree m r n = false
  | 0, q, p => by
    simp only [firstFitFrom, reduceCtorEq, false_iff]
    omega
  | tries + 1, q, p => by
    unfold firstFitFrom
    split
    · rename_i h
      simp only [Option.some.injEq]
      constructor
      · rintro rfl
        exact ⟨Nat.le_refl _, by omega, h, by omega⟩
      · rintro ⟨h1, h2, h3, h4⟩
        rcases Nat.lt_or_eq_of_le h1 with hlt | heq
        · have := h4 q (Nat.le_refl _) hlt
          simp [h] at this
        · exact heq
    · rename_i h
      rw [firstFitFrom_some]
      constructor
      · rintro ⟨h1, h2, h3, h4⟩
        refine ⟨by omega, by omega, h3, fun r hr1 hr2 => ?_⟩
        rcases Nat.lt_or_eq_of_le hr1 with hlt | heq
        · exact h4 r hlt hr2
        · subst heq
          simpa using h
      · rintro ⟨h1, h2, h3, h4⟩
        have hne : q ≠ p := by
          rintro rfl
          exact h h3
        exact ⟨by omega, by omega, h3, fun r hr1 hr2 => h4 r (by omega) hr2⟩

theorem firstFitFrom_none {m n : Nat} : ∀ {tries q : Nat},
    firstFitFrom m n tries q = none ↔ ∀ r, q ≤ r → r < q + tries → runFree m r n = false
  | 0, q => by
    simp only [firstFitFrom, true_iff]
    omega
  | tries + 1, q => by
    unfold firstFitFrom
    split
    · rename_i h
      simp only [reduceCtorEq, false_iff, not_forall]
      exact ⟨q, Nat.le_refl _, by omega, by simp [h]⟩
    · rename_i h
      rw [firstFitFrom_none]
      constructor
      · intro hr r h1 h2
        rcases Nat.lt_or_eq_of_le h1 with hlt | heq
        · exact hr r hlt (by omega)
        · subst heq
          simpa using h
      · intro hr r h1 h2
        exact hr r (by omega) (by omega)

/-- R60: the pointer is the lowest address at which n free bytes begin inside the arena. -/
theorem firstFit_some {size m n p : Nat} : firstFit size m n = some p ↔
    p + n ≤ size ∧ runFree m p n = true ∧ ∀ r, r < p → runFree m r n = false := by
  rw [firstFit, firstFitFrom_some]
  constructor
  · rintro ⟨_, h2, h3, h4⟩
    exact ⟨by omega, h3, fun r hr => h4 r (Nat.zero_le _) hr⟩
  · rintro ⟨h1, h3, h4⟩
    exact ⟨Nat.zero_le _, by omega, h3, fun r _ hr => h4 r hr⟩

/-- R60: no pointer when no run of n free bytes lies inside the arena. -/
theorem firstFit_none {size m n : Nat} : firstFit size m n = none ↔
    ∀ r, r + n ≤ size → runFree m r n = false := by
  rw [firstFit, firstFitFrom_none]
  constructor
  · intro h r hr
    exact h r (Nat.zero_le _) (by omega)
  · intro h r _ hr
    exact h r (by omega)

/-- R57. -/
theorem allocated_iff (s : State) (a : Nat) :
    s.allocated a = true ↔ a < s.cfg.arenaSize ∧ s.amap.testBit a = true := by
  simp [State.allocated]

end Sys2Proof.Machine
end

