-- ==== Sys2Proof/Laws/Decode.lean ====
section
/-! SUPPORT. The decoder's parts on the encoder's parts: bytes, indices, operands, opcodes, and what a
successful read of each part consumed. -/

namespace Sys2Proof

/-! ## Parse -/

theorem andThen_ok {α β : Type} {p : Parse α} {f : α → Parse β} {bs rest : List Byte} {a : α}
    (h : p bs = .ok (a, rest)) : p.andThen f bs = f a rest := by
  simp [Parse.andThen, h]

theorem andThen_error {α β : Type} {p : Parse α} {f : α → Parse β} {bs : List Byte}
    {e : DecodeError} (h : p bs = .error e) : p.andThen f bs = .error e := by
  simp [Parse.andThen, h]

/-- A sequence of two reads that succeeds is two reads that succeed. -/
theorem andThen_eq_ok {α β : Type} {p : Parse α} {f : α → Parse β} {bs rest : List Byte} {b : β} :
    p.andThen f bs = .ok (b, rest) ↔ ∃ a mid, p bs = .ok (a, mid) ∧ f a mid = .ok (b, rest) := by
  unfold Parse.andThen
  split
  · rename_i a mid h
    simp [h]
  · rename_i e h
    simp [h]

@[simp] theorem done_apply {α : Type} (a : α) (bs : List Byte) :
    Parse.done a bs = .ok (a, bs) := rfl

@[simp] theorem fail_apply {α : Type} (e : DecodeError) (bs : List Byte) :
    (Parse.fail e : Parse α) bs = .error e := rfl

@[simp] theorem fetch8_nil : fetch8 [] = .error .truncated := rfl

@[simp] theorem fetch8_cons (b : Byte) (bs : List Byte) : fetch8 (b :: bs) = .ok (b, bs) := rfl

theorem fetch8_eq_ok {bs rest : List Byte} {b : Byte} :
    fetch8 bs = .ok (b, rest) ↔ bs = b :: rest := by
  cases bs with
  | nil => simp
  | cons c cs => simp

/-! ## Byte order -/

theorem concat_bytes (v : Word) : concat (highByte v) (lowByte v) = v := by
  refine BitVec.eq_of_getLsbD_eq fun i hi => ?_
  simp only [concat, highByte, lowByte, BitVec.getLsbD_append, BitVec.getLsbD_extractLsb']
  by_cases h : i < 8
  · simp [h]
  · have h2 : i - 8 < 8 := by omega
    have h3 : 8 + (i - 8) = i := by omega
    simp [h, h2, h3]

theorem lowByte_concat (hi lo : Byte) : lowByte (concat hi lo) = lo := by
  refine BitVec.eq_of_getLsbD_eq fun i h => ?_
  simp only [concat, lowByte, BitVec.getLsbD_extractLsb', BitVec.getLsbD_append]
  simp [h]

theorem highByte_concat (hi lo : Byte) : highByte (concat hi lo) = hi := by
  refine BitVec.eq_of_getLsbD_eq fun i h => ?_
  simp only [concat, highByte, BitVec.getLsbD_extractLsb', BitVec.getLsbD_append]
  simp [h]

/-! ## Operands -/

theorem toNat_indexByte (i : RegIdx) : (BitVec.ofNat 8 i.val).toNat = i.val := by
  have := i.isLt
  simp only [BitVec.toNat_ofNat]
  omega

theorem readIndex_byte (i : RegIdx) (rest : List Byte) :
    readIndex (BitVec.ofNat 8 i.val :: rest) = .ok (i, rest) := by
  rw [readIndex, andThen_ok (fetch8_cons _ _)]
  simp only [toNat_indexByte]
  simp [i.isLt]

theorem readIndex_eq_ok {bs rest : List Byte} {i : RegIdx} :
    readIndex bs = .ok (i, rest) ↔ bs = BitVec.ofNat 8 i.val :: rest := by
  constructor
  · intro h
    obtain ⟨b, mid, hb, hi⟩ := andThen_eq_ok.1 h
    rw [fetch8_eq_ok] at hb
    subst hb
    split at hi
    · simp only [done_apply, Except.ok.injEq, Prod.mk.injEq] at hi
      obtain ⟨rfl, rfl⟩ := hi
      simp
    · simp at hi
  · rintro rfl
    exact readIndex_byte i rest

theorem readReg_destBytes (cfg : Config) (d : RegIdx) (rest : List Byte) :
    readReg cfg (destBytes cfg d ++ rest) = .ok (d, rest) := by
  simp only [destBytes, List.cons_append, List.nil_append]
  rw [readReg, andThen_ok (fetch8_cons _ _), if_pos rfl, readIndex_byte]

theorem readReg_eq_ok {cfg : Config} {bs rest : List Byte} {d : RegIdx} :
    readReg cfg bs = .ok (d, rest) ↔ bs = destBytes cfg d ++ rest := by
  constructor
  · intro h
    obtain ⟨t, mid, ht, hi⟩ := andThen_eq_ok.1 h
    rw [fetch8_eq_ok] at ht
    subst ht
    split at hi
    · rename_i htag
      rw [readIndex_eq_ok] at hi
      simp [destBytes, htag, hi]
    · simp at hi
  · rintro rfl
    exact readReg_destBytes cfg d rest

/-- Reading an encoded operand gives the operand back. -/
theorem readOperand_bytes {cfg : Config} (htag : cfg.tagReg ≠ cfg.tagImm16) {a : Operand}
    (ha : a.wf cfg = true) (rest : List Byte) :
    readOperand cfg (a.bytes cfg ++ rest) = .ok (a, rest) := by
  cases a with
  | reg i =>
    simp only [Operand.bytes, List.cons_append, List.nil_append]
    rw [readOperand, andThen_ok (fetch8_cons _ _), if_pos rfl, andThen_ok (readIndex_byte i rest)]
    rfl
  | imm16 v =>
    simp only [Operand.bytes, List.cons_append, List.nil_append]
    rw [readOperand, andThen_ok (fetch8_cons _ _), if_neg htag.symm, if_pos rfl,
      andThen_ok (fetch8_cons _ _), andThen_ok (fetch8_cons _ _)]
    simp [concat_bytes]
  | lit b =>
    simp only [Operand.wf, Bool.and_eq_true, bne_iff_ne, ne_eq] at ha
    simp only [Operand.bytes, List.cons_append, List.nil_append]
    rw [readOperand, andThen_ok (fetch8_cons _ _), if_neg ha.1, if_neg ha.2]
    rfl

/-- An operand that was read is well-formed, and its encoding is what was read. -/
theorem readOperand_eq_ok {cfg : Config} {bs rest : List Byte} {a : Operand}
    (h : readOperand cfg bs = .ok (a, rest)) :
    a.wf cfg = true ∧ bs = a.bytes cfg ++ rest := by
  obtain ⟨t, mid, ht, hv⟩ := andThen_eq_ok.1 h
  rw [fetch8_eq_ok] at ht
  subst ht
  split at hv
  · rename_i htag
    obtain ⟨i, mid', hi, hr⟩ := andThen_eq_ok.1 hv
    rw [readIndex_eq_ok] at hi
    simp only [done_apply, Except.ok.injEq, Prod.mk.injEq] at hr
    obtain ⟨rfl, rfl⟩ := hr
    simp [Operand.wf, Operand.bytes, htag, hi]
  · split at hv
    · rename_i htag
      obtain ⟨lo, mid', hlo, hw⟩ := andThen_eq_ok.1 hv
      obtain ⟨hi, mid'', hhi, hr⟩ := andThen_eq_ok.1 hw
      rw [fetch8_eq_ok] at hlo hhi
      simp only [done_apply, Except.ok.injEq, Prod.mk.injEq] at hr
      obtain ⟨rfl, rfl⟩ := hr
      simp [Operand.wf, Operand.bytes, htag, hlo, hhi, lowByte_concat, highByte_concat]
    · rename_i h1 h2
      simp only [done_apply, Except.ok.injEq, Prod.mk.injEq] at hv
      obtain ⟨rfl, rfl⟩ := hv
      simp [Operand.wf, Operand.bytes, h1, h2]

/-! ## Opcodes -/

theorem Mnemonic.mem_all (m : Mnemonic) : m ∈ Mnemonic.all := by
  cases m <;> decide

theorem Mnemonic.row_injective {m m' : Mnemonic} (h : m.row = m'.row) : m = m' := by
  revert h
  cases m <;> cases m' <;> decide

/-- `OPC` is injective (00_scope.md R8). -/
theorem opcode_injective {cfg : Config} (h : cfg.opc.toList.Nodup) {m m' : Mnemonic}
    (he : cfg.opcode m = cfg.opcode m') : m = m' := by
  refine Mnemonic.row_injective (Fin.ext ?_)
  have hinj := List.nodup_iff_injective_get.1 h
  have hlen : cfg.opc.toList.length = 25 := by simp
  have := @hinj ⟨m.row, by omega⟩ ⟨m'.row, by omega⟩ (by simpa [Config.opcode] using he)
  simpa using this

theorem mnemonicOf_opcode {cfg : Config} (h : cfg.opc.toList.Nodup) (m : Mnemonic) :
    mnemonicOf cfg (cfg.opcode m) = some m := by
  unfold mnemonicOf
  cases hf : Mnemonic.all.find? fun m' => cfg.opcode m' == cfg.opcode m with
  | none =>
    rw [List.find?_eq_none] at hf
    exact absurd (hf m (Mnemonic.mem_all m)) (by simp)
  | some m' =>
    have he : cfg.opcode m' = cfg.opcode m := by simpa using List.find?_some hf
    rw [opcode_injective h he]

theorem mnemonicOf_eq_some {cfg : Config} {b : Byte} {m : Mnemonic}
    (h : mnemonicOf cfg b = some m) : cfg.opcode m = b := by
  simpa using List.find?_some h

theorem mnemonicOf_eq_none {cfg : Config} {b : Byte} :
    mnemonicOf cfg b = none ↔ ∀ m, cfg.opcode m ≠ b := by
  simp only [mnemonicOf, List.find?_eq_none, beq_iff_eq]
  exact ⟨fun h m => h m (Mnemonic.mem_all m), fun h m _ => h m⟩

/-! ## Sizes -/

@[simp] theorem length_operandBytes (cfg : Config) (a : Operand) :
    (a.bytes cfg).length = a.size := by
  cases a <;> rfl

theorem operandSize_bounds (a : Operand) : 1 ≤ a.size ∧ a.size ≤ 3 := by
  cases a <;> simp [Operand.size]

@[simp] theorem length_destBytes (cfg : Config) (d : RegIdx) : (destBytes cfg d).length = 2 := rfl

end Sys2Proof
end

