-- ==== Sys2Proof/Laws/Assembler.lean ====
section
/-! SUPPORT. How the assembler classifies a token (30_encoding.md R102). -/

namespace Sys2Proof.Machine

/-- No mnemonic begins with `#`, `$` or `@`. -/
theorem mnemonicOfText_marked {c : Char} (hc : c ∈ ['#', '$', '@']) (v : Text) :
    mnemonicOfText (c :: v) = none := by
  simp only [mnemonicOfText, List.find?_eq_none]
  intro m _
  simp only [List.mem_cons, List.not_mem_nil, or_false] at hc
  rcases hc with rfl | rfl | rfl <;> cases m <;> simp [Mnemonic.text, foldCase, Char.toLower]

/-- R102, class 1: a label name is a label reference, whatever else it could be. -/
theorem itemOfToken_label {cfg : Config} {strict : Bool} {names : List Text} {t : Text}
    (h : names.contains (foldCase t) = true) :
    itemOfToken cfg strict names t = .ok (.ref (foldCase t)) := by
  unfold itemOfToken
  rw [if_pos h]

/-- R102, class 3: a token that is no label name and begins with `#`. -/
theorem itemOfToken_immediate {cfg : Config} {strict : Bool} {names : List Text} {v : Text}
    (h : names.contains (foldCase ('#' :: v)) = false) :
    itemOfToken cfg strict names ('#' :: v) = immediateToken cfg strict ('#' :: v) v := by
  rw [itemOfToken, if_neg (by rw [h]; exact Bool.false_ne_true),
    mnemonicOfText_marked (by decide) v]

/-- R102, class 3: a token that is no label name and begins with `$`. -/
theorem itemOfToken_byte {cfg : Config} {strict : Bool} {names : List Text} {v : Text}
    (h : names.contains (foldCase ('$' :: v)) = false) :
    itemOfToken cfg strict names ('$' :: v) = byteToken cfg strict ('$' :: v) v := by
  rw [itemOfToken, if_neg (by rw [h]; exact Bool.false_ne_true),
    mnemonicOfText_marked (by decide) v]

/-- R102, class 3: a token that is no label name and begins with `@`. -/
theorem itemOfToken_register {cfg : Config} {strict : Bool} {names : List Text} {v : Text}
    (h : names.contains (foldCase ('@' :: v)) = false) :
    itemOfToken cfg strict names ('@' :: v) = registerToken cfg strict ('@' :: v) v := by
  rw [itemOfToken, if_neg (by rw [h]; exact Bool.false_ne_true),
    mnemonicOfText_marked (by decide) v]

end Sys2Proof.Machine
end

