-- ==== Sys2Proof/Laws/Memory.lean ====
section
/-! SUPPORT. Lists by key: read after write, writes elsewhere, and that every operation keeps the
canonical form. -/

namespace Sys2Proof.Machine

variable {β : Type}

/-! ## keysFrom -/

theorem keysFrom_mono {lo lo' : Nat} (h : lo' ≤ lo) :
    ∀ {m : List (Nat × β)}, keysFrom lo m = true → keysFrom lo' m = true
  | [], _ => rfl
  | (a, b) :: m, hm => by
    simp only [keysFrom, Bool.and_eq_true, decide_eq_true_eq] at hm ⊢
    exact ⟨by omega, hm.2⟩

/-- A key below the bound has no entry. -/
theorem keyGet_of_lt : ∀ {m : List (Nat × β)} {lo k : Nat},
    keysFrom lo m = true → k < lo → keyGet m k = none
  | [], _, _, _, _ => rfl
  | (a, b) :: m, lo, k, hm, hk => by
    simp only [keysFrom, Bool.and_eq_true, decide_eq_true_eq] at hm
    have hak : a ≠ k := by omega
    simp [keyGet, hak, keyGet_of_lt hm.2 (show k < a + 1 by omega)]

/-! ## keySet -/

/-- Reading key `k'` after writing key `k`: true of every list, canonical or not. -/
theorem keyGet_keySet : ∀ (m : List (Nat × β)) (k k' : Nat) (v : β),
    keyGet (keySet m k v) k' = if k' = k then some v else keyGet m k'
  | [], k, k', v => by
    by_cases h : k' = k
    · simp [keySet, keyGet, h]
    · simp [keySet, keyGet, h, Ne.symm h]
  | (a, b) :: m, k, k', v => by
    unfold keySet
    split
    · by_cases h : k' = k
      · simp [keyGet, h]
      · simp [keyGet, h, Ne.symm h]
    · split
      · rename_i h1 h2
        subst h2
        by_cases h : k' = k
        · simp [keyGet, h]
        · simp [keyGet, h, Ne.symm h]
      · rename_i h1 h2
        have ih := keyGet_keySet m k k' v
        by_cases h : a = k'
        · have : k' ≠ k := by omega
          simp [keyGet, h, this]
        · simp [keyGet, h, ih]

theorem keysFrom_keySet : ∀ {m : List (Nat × β)} {lo k : Nat} {v : β},
    keysFrom lo m = true → lo ≤ k → keysFrom lo (keySet m k v) = true
  | [], lo, k, v, _, hk => by simp [keySet, keysFrom, hk]
  | (a, b) :: m, lo, k, v, hm, hk => by
    simp only [keysFrom, Bool.and_eq_true, decide_eq_true_eq] at hm
    unfold keySet
    split
    · rename_i h
      simp only [keysFrom, Bool.and_eq_true, decide_eq_true_eq]
      exact ⟨hk, by omega, hm.2⟩
    · split
      · rename_i h1 h2
        subst h2
        simp only [keysFrom, Bool.and_eq_true, decide_eq_true_eq]
        exact ⟨hk, hm.2⟩
      · rename_i h1 h2
        simp only [keysFrom, Bool.and_eq_true, decide_eq_true_eq]
        exact ⟨hm.1, keysFrom_keySet hm.2 (by omega)⟩

/-! ## keyErase -/

/-- Reading key `k'` after removing key `k`. -/
theorem keyGet_keyErase : ∀ {m : List (Nat × β)} {lo : Nat}, keysFrom lo m = true →
    ∀ (k k' : Nat), keyGet (keyErase m k) k' = if k' = k then none else keyGet m k'
  | [], _, _, k, k' => by simp [keyErase, keyGet]
  | (a, b) :: m, lo, hm, k, k' => by
    simp only [keysFrom, Bool.and_eq_true, decide_eq_true_eq] at hm
    unfold keyErase
    split
    · rename_i h
      subst h
      by_cases h' : k' = a
      · subst h'
        simp [keyGet_of_lt hm.2 (Nat.lt_succ_self k')]
      · simp [keyGet, h', Ne.symm h']
    · rename_i h
      have ih := keyGet_keyErase hm.2 k k'
      by_cases h' : a = k'
      · have : k' ≠ k := by omega
        simp [keyGet, h', this]
      · simp [keyGet, h', ih]

theorem keysFrom_keyErase : ∀ {m : List (Nat × β)} {lo k : Nat},
    keysFrom lo m = true → keysFrom lo (keyErase m k) = true
  | [], lo, k, _ => by simp [keyErase, keysFrom]
  | (a, b) :: m, lo, k, hm => by
    simp only [keysFrom, Bool.and_eq_true, decide_eq_true_eq] at hm
    unfold keyErase
    split
    · exact keysFrom_mono (by omega) hm.2
    · simp only [keysFrom, Bool.and_eq_true, decide_eq_true_eq]
      exact ⟨hm.1, keysFrom_keyErase hm.2⟩

/-- Two canonical lists with the same entries are the same list. -/
theorem keys_ext : ∀ {m m' : List (Nat × β)} {lo : Nat},
    keysFrom lo m = true → keysFrom lo m' = true → (∀ k, keyGet m k = keyGet m' k) → m = m'
  | [], [], _, _, _, _ => rfl
  | [], (a, b) :: m', _, _, _, h => by simpa [keyGet] using h a
  | (a, b) :: m, [], _, _, _, h => by simpa [keyGet] using h a
  | (a, b) :: m, (a', b') :: m', lo, hm, hm', h => by
    simp only [keysFrom, Bool.and_eq_true, decide_eq_true_eq] at hm hm'
    have haa : a = a' := by
      rcases Nat.lt_trichotomy a a' with hlt | heq | hgt
      · have := h a
        have h2 : a' ≠ a := by omega
        simp [keyGet, h2, keyGet_of_lt hm'.2 (show a < a' + 1 by omega)] at this
      · exact heq
      · have := h a'
        have h2 : a ≠ a' := by omega
        simp [keyGet, h2, keyGet_of_lt hm.2 (show a' < a + 1 by omega)] at this
    subst haa
    have hbb : b = b' := by simpa [keyGet] using h a
    subst hbb
    have hrest : m = m' := by
      refine keys_ext hm.2 hm'.2 fun k => ?_
      by_cases hk : a = k
      · subst hk
        rw [keyGet_of_lt hm.2 (Nat.lt_succ_self a), keyGet_of_lt hm'.2 (Nat.lt_succ_self a)]
      · have := h k
        simpa [keyGet, hk] using this
    rw [hrest]

/-! ## Memory -/

theorem read_write (m : Memory) (a a' : Nat) (b : Byte) :
    (m.write a b).read a' = if a' = a then some b else m.read a' :=
  keyGet_keySet m a a' b

theorem wf_write {m : Memory} (hm : m.wf = true) (a : Nat) (b : Byte) :
    (m.write a b).wf = true :=
  keysFrom_keySet hm (Nat.zero_le a)

theorem all_keySet {q : Nat × β → Bool} : ∀ {m : List (Nat × β)} {k : Nat} {v : β},
    m.all q = true → q (k, v) = true → (keySet m k v).all q = true
  | [], k, v, _, hq => by simp [keySet, hq]
  | (a, b) :: m, k, v, hm, hq => by
    simp only [List.all_cons, Bool.and_eq_true] at hm
    unfold keySet
    split
    · simp [hq, hm.1, hm.2]
    · split
      · simp [hq, hm.2]
      · simp [hm.1, all_keySet hm.2 hq]

theorem below_write {m : Memory} {n : Nat} (hm : m.below n = true) {a : Nat} (ha : a < n)
    (b : Byte) : (m.write a b).below n = true :=
  all_keySet hm (by simp [ha])

theorem keysFrom_fill (b : Byte) : ∀ (n lo : Nat),
    keysFrom lo ((List.range' lo n).map fun a => (a, b)) = true
  | 0, _ => rfl
  | n + 1, lo => by simp [List.range'_succ, keysFrom, keysFrom_fill b n (lo + 1)]

theorem wf_fill (n : Nat) (b : Byte) : (Memory.fill n b).wf = true := by
  simpa [Memory.fill, Memory.wf, List.range_eq_range'] using keysFrom_fill b n 0

theorem below_fill (n : Nat) (b : Byte) : (Memory.fill n b).below n = true := by
  simp [Memory.fill, Memory.below]

theorem keyGet_fill (b : Byte) : ∀ (n lo k : Nat),
    keyGet ((List.range' lo n).map fun a => (a, b)) k =
      if lo ≤ k ∧ k < lo + n then some b else none
  | 0, lo, k => by
    have : ¬ (lo ≤ k ∧ k < lo + 0) := by omega
    simp [keyGet]
  | n + 1, lo, k => by
    have ih := keyGet_fill b n (lo + 1) k
    by_cases h : lo = k
    · simp [List.range'_succ, keyGet, h]
    · simp only [List.range'_succ, List.map_cons, keyGet, h, if_false, ih]
      have : (lo + 1 ≤ k ∧ k < lo + 1 + n) ↔ (lo ≤ k ∧ k < lo + (n + 1)) := by omega
      simp only [this]

/-- Reading a filled memory. -/
theorem read_fill (n : Nat) (b : Byte) (a : Nat) :
    (Memory.fill n b).read a = if a < n then some b else none := by
  simpa [Memory.fill, Memory.read, List.range_eq_range'] using keyGet_fill b n 0 a

/-- An address at or past the bound holds no byte. -/
theorem read_of_below {n : Nat} : ∀ {m : Memory} {a : Nat}, m.below n = true → n ≤ a →
    m.read a = none
  | [], _, _, _ => rfl
  | (k, b) :: m, a, hm, ha => by
    simp only [Memory.below, List.all_cons, Bool.and_eq_true, decide_eq_true_eq] at hm
    have hk : k ≠ a := by omega
    have ih : Memory.read m a = none := read_of_below (m := m) hm.2 ha
    simpa [Memory.read, keyGet, hk] using ih

end Sys2Proof.Machine
end

