-- ==== Sys2Proof/Laws/State.lean ====
section
/-! SUPPORT. One lemma per field and per update of the state, each true by rfl. -/

namespace Sys2Proof.Machine

variable (s : State)

/-! ## setReg -/

@[simp] theorem setReg_cfg (i : RegIdx) (v : Word) : (s.setReg i v).cfg = s.cfg := rfl
@[simp] theorem setReg_regs (i : RegIdx) (v : Word) : (s.setReg i v).regs = s.regs.set i.val v := rfl
@[simp] theorem setReg_pc (i : RegIdx) (v : Word) : (s.setReg i v).pc = s.pc := rfl
@[simp] theorem setReg_flags (i : RegIdx) (v : Word) : (s.setReg i v).flags = s.flags := rfl
@[simp] theorem setReg_cs (i : RegIdx) (v : Word) : (s.setReg i v).cs = s.cs := rfl
@[simp] theorem setReg_amap (i : RegIdx) (v : Word) : (s.setReg i v).amap = s.amap := rfl
@[simp] theorem setReg_stab (i : RegIdx) (v : Word) : (s.setReg i v).stab = s.stab := rfl
@[simp] theorem setReg_arena (i : RegIdx) (v : Word) : (s.setReg i v).arena = s.arena := rfl
@[simp] theorem setReg_img (i : RegIdx) (v : Word) : (s.setReg i v).img = s.img := rfl
@[simp] theorem setReg_handlers (i : RegIdx) (v : Word) : (s.setReg i v).handlers = s.handlers := rfl
@[simp] theorem setReg_abuf (i : RegIdx) (v : Word) : (s.setReg i v).abuf = s.abuf := rfl
@[simp] theorem setReg_pbuf (i : RegIdx) (v : Word) : (s.setReg i v).pbuf = s.pbuf := rfl
@[simp] theorem setReg_rstate (i : RegIdx) (v : Word) : (s.setReg i v).rstate = s.rstate := rfl
@[simp] theorem setReg_fault (i : RegIdx) (v : Word) : (s.setReg i v).fault = s.fault := rfl
@[simp] theorem setReg_draws (i : RegIdx) (v : Word) : (s.setReg i v).draws = s.draws := rfl
@[simp] theorem setReg_calls (i : RegIdx) (v : Word) : (s.setReg i v).calls = s.calls := rfl

/-! ## setPc -/

@[simp] theorem setPc_cfg (t : Nat) : (s.setPc t).cfg = s.cfg := rfl
@[simp] theorem setPc_regs (t : Nat) : (s.setPc t).regs = s.regs := rfl
@[simp] theorem setPc_pc (t : Nat) : (s.setPc t).pc = t := rfl
@[simp] theorem setPc_flags (t : Nat) : (s.setPc t).flags = s.flags := rfl
@[simp] theorem setPc_cs (t : Nat) : (s.setPc t).cs = s.cs := rfl
@[simp] theorem setPc_amap (t : Nat) : (s.setPc t).amap = s.amap := rfl
@[simp] theorem setPc_stab (t : Nat) : (s.setPc t).stab = s.stab := rfl
@[simp] theorem setPc_arena (t : Nat) : (s.setPc t).arena = s.arena := rfl
@[simp] theorem setPc_img (t : Nat) : (s.setPc t).img = s.img := rfl
@[simp] theorem setPc_handlers (t : Nat) : (s.setPc t).handlers = s.handlers := rfl
@[simp] theorem setPc_abuf (t : Nat) : (s.setPc t).abuf = s.abuf := rfl
@[simp] theorem setPc_pbuf (t : Nat) : (s.setPc t).pbuf = s.pbuf := rfl
@[simp] theorem setPc_rstate (t : Nat) : (s.setPc t).rstate = s.rstate := rfl
@[simp] theorem setPc_fault (t : Nat) : (s.setPc t).fault = s.fault := rfl
@[simp] theorem setPc_draws (t : Nat) : (s.setPc t).draws = s.draws := rfl
@[simp] theorem setPc_calls (t : Nat) : (s.setPc t).calls = s.calls := rfl

/-! ## past -/

@[simp] theorem past_cfg (i : Instr) : (s.past i).cfg = s.cfg := rfl
@[simp] theorem past_regs (i : Instr) : (s.past i).regs = s.regs := rfl
@[simp] theorem past_pc (i : Instr) : (s.past i).pc = s.pc + i.size := rfl
@[simp] theorem past_flags (i : Instr) : (s.past i).flags = s.flags := rfl
@[simp] theorem past_cs (i : Instr) : (s.past i).cs = s.cs := rfl
@[simp] theorem past_amap (i : Instr) : (s.past i).amap = s.amap := rfl
@[simp] theorem past_stab (i : Instr) : (s.past i).stab = s.stab := rfl
@[simp] theorem past_arena (i : Instr) : (s.past i).arena = s.arena := rfl
@[simp] theorem past_img (i : Instr) : (s.past i).img = s.img := rfl
@[simp] theorem past_handlers (i : Instr) : (s.past i).handlers = s.handlers := rfl
@[simp] theorem past_abuf (i : Instr) : (s.past i).abuf = s.abuf := rfl
@[simp] theorem past_pbuf (i : Instr) : (s.past i).pbuf = s.pbuf := rfl
@[simp] theorem past_rstate (i : Instr) : (s.past i).rstate = s.rstate := rfl
@[simp] theorem past_fault (i : Instr) : (s.past i).fault = s.fault := rfl
@[simp] theorem past_draws (i : Instr) : (s.past i).draws = s.draws := rfl
@[simp] theorem past_calls (i : Instr) : (s.past i).calls = s.calls := rfl

/-! ## setFlags -/

@[simp] theorem setFlags_cfg (f : Flags) : (s.setFlags f).cfg = s.cfg := rfl
@[simp] theorem setFlags_regs (f : Flags) : (s.setFlags f).regs = s.regs := rfl
@[simp] theorem setFlags_pc (f : Flags) : (s.setFlags f).pc = s.pc := rfl
@[simp] theorem setFlags_flags (f : Flags) : (s.setFlags f).flags = f := rfl
@[simp] theorem setFlags_cs (f : Flags) : (s.setFlags f).cs = s.cs := rfl
@[simp] theorem setFlags_amap (f : Flags) : (s.setFlags f).amap = s.amap := rfl
@[simp] theorem setFlags_stab (f : Flags) : (s.setFlags f).stab = s.stab := rfl
@[simp] theorem setFlags_arena (f : Flags) : (s.setFlags f).arena = s.arena := rfl
@[simp] theorem setFlags_img (f : Flags) : (s.setFlags f).img = s.img := rfl
@[simp] theorem setFlags_handlers (f : Flags) : (s.setFlags f).handlers = s.handlers := rfl
@[simp] theorem setFlags_abuf (f : Flags) : (s.setFlags f).abuf = s.abuf := rfl
@[simp] theorem setFlags_pbuf (f : Flags) : (s.setFlags f).pbuf = s.pbuf := rfl
@[simp] theorem setFlags_rstate (f : Flags) : (s.setFlags f).rstate = s.rstate := rfl
@[simp] theorem setFlags_fault (f : Flags) : (s.setFlags f).fault = s.fault := rfl
@[simp] theorem setFlags_draws (f : Flags) : (s.setFlags f).draws = s.draws := rfl
@[simp] theorem setFlags_calls (f : Flags) : (s.setFlags f).calls = s.calls := rfl

/-! ## raise -/

@[simp] theorem raise_cfg (k : FaultKind) (a : Nat) : (s.raise k a).cfg = s.cfg := rfl
@[simp] theorem raise_regs (k : FaultKind) (a : Nat) : (s.raise k a).regs = s.regs := rfl
@[simp] theorem raise_pc (k : FaultKind) (a : Nat) : (s.raise k a).pc = a := rfl
@[simp] theorem raise_flags (k : FaultKind) (a : Nat) : (s.raise k a).flags = s.flags := rfl
@[simp] theorem raise_cs (k : FaultKind) (a : Nat) : (s.raise k a).cs = s.cs := rfl
@[simp] theorem raise_amap (k : FaultKind) (a : Nat) : (s.raise k a).amap = s.amap := rfl
@[simp] theorem raise_stab (k : FaultKind) (a : Nat) : (s.raise k a).stab = s.stab := rfl
@[simp] theorem raise_arena (k : FaultKind) (a : Nat) : (s.raise k a).arena = s.arena := rfl
@[simp] theorem raise_img (k : FaultKind) (a : Nat) : (s.raise k a).img = s.img := rfl
@[simp] theorem raise_handlers (k : FaultKind) (a : Nat) : (s.raise k a).handlers = s.handlers := rfl
@[simp] theorem raise_abuf (k : FaultKind) (a : Nat) : (s.raise k a).abuf = s.abuf := rfl
@[simp] theorem raise_pbuf (k : FaultKind) (a : Nat) : (s.raise k a).pbuf = s.pbuf := rfl
@[simp] theorem raise_rstate (k : FaultKind) (a : Nat) : (s.raise k a).rstate = .faulted := rfl
@[simp] theorem raise_fault (k : FaultKind) (a : Nat) : (s.raise k a).fault = some (k, a) := rfl
@[simp] theorem raise_draws (k : FaultKind) (a : Nat) : (s.raise k a).draws = s.draws := rfl
@[simp] theorem raise_calls (k : FaultKind) (a : Nat) : (s.raise k a).calls = s.calls := rfl

/-! ## halt -/

@[simp] theorem halt_cfg : s.halt.cfg = s.cfg := rfl
@[simp] theorem halt_regs : s.halt.regs = s.regs := rfl
@[simp] theorem halt_pc : s.halt.pc = s.pc := rfl
@[simp] theorem halt_flags : s.halt.flags = s.flags := rfl
@[simp] theorem halt_cs : s.halt.cs = s.cs := rfl
@[simp] theorem halt_amap : s.halt.amap = s.amap := rfl
@[simp] theorem halt_stab : s.halt.stab = s.stab := rfl
@[simp] theorem halt_arena : s.halt.arena = s.arena := rfl
@[simp] theorem halt_img : s.halt.img = s.img := rfl
@[simp] theorem halt_handlers : s.halt.handlers = s.handlers := rfl
@[simp] theorem halt_abuf : s.halt.abuf = s.abuf := rfl
@[simp] theorem halt_pbuf : s.halt.pbuf = s.pbuf := rfl
@[simp] theorem halt_rstate : s.halt.rstate = .halted := rfl
@[simp] theorem halt_fault : s.halt.fault = s.fault := rfl
@[simp] theorem halt_draws : s.halt.draws = s.draws := rfl
@[simp] theorem halt_calls : s.halt.calls = s.calls := rfl

/-! ## memWrite -/

@[simp] theorem memWrite_cfg (a : Nat) (b : Byte) : (s.memWrite a b).cfg = s.cfg := rfl
@[simp] theorem memWrite_regs (a : Nat) (b : Byte) : (s.memWrite a b).regs = s.regs := rfl
@[simp] theorem memWrite_pc (a : Nat) (b : Byte) : (s.memWrite a b).pc = s.pc := rfl
@[simp] theorem memWrite_flags (a : Nat) (b : Byte) : (s.memWrite a b).flags = s.flags := rfl
@[simp] theorem memWrite_cs (a : Nat) (b : Byte) : (s.memWrite a b).cs = s.cs := rfl
@[simp] theorem memWrite_amap (a : Nat) (b : Byte) : (s.memWrite a b).amap = s.amap := rfl
@[simp] theorem memWrite_stab (a : Nat) (b : Byte) : (s.memWrite a b).stab = s.stab := rfl
@[simp] theorem memWrite_arena (a : Nat) (b : Byte) : (s.memWrite a b).arena = Memory.write s.arena a b := rfl
@[simp] theorem memWrite_img (a : Nat) (b : Byte) : (s.memWrite a b).img = s.img := rfl
@[simp] theorem memWrite_handlers (a : Nat) (b : Byte) : (s.memWrite a b).handlers = s.handlers := rfl
@[simp] theorem memWrite_abuf (a : Nat) (b : Byte) : (s.memWrite a b).abuf = s.abuf := rfl
@[simp] theorem memWrite_pbuf (a : Nat) (b : Byte) : (s.memWrite a b).pbuf = s.pbuf := rfl
@[simp] theorem memWrite_rstate (a : Nat) (b : Byte) : (s.memWrite a b).rstate = s.rstate := rfl
@[simp] theorem memWrite_fault (a : Nat) (b : Byte) : (s.memWrite a b).fault = s.fault := rfl
@[simp] theorem memWrite_draws (a : Nat) (b : Byte) : (s.memWrite a b).draws = s.draws := rfl
@[simp] theorem memWrite_calls (a : Nat) (b : Byte) : (s.memWrite a b).calls = s.calls := rfl

/-! ## setBuffer -/

@[simp] theorem setBuffer_cfg (n : Fin 2) (m : Memory) : (s.setBuffer n m).cfg = s.cfg := rfl
@[simp] theorem setBuffer_regs (n : Fin 2) (m : Memory) : (s.setBuffer n m).regs = s.regs := rfl
@[simp] theorem setBuffer_pc (n : Fin 2) (m : Memory) : (s.setBuffer n m).pc = s.pc := rfl
@[simp] theorem setBuffer_flags (n : Fin 2) (m : Memory) : (s.setBuffer n m).flags = s.flags := rfl
@[simp] theorem setBuffer_cs (n : Fin 2) (m : Memory) : (s.setBuffer n m).cs = s.cs := rfl
@[simp] theorem setBuffer_amap (n : Fin 2) (m : Memory) : (s.setBuffer n m).amap = s.amap := rfl
@[simp] theorem setBuffer_stab (n : Fin 2) (m : Memory) : (s.setBuffer n m).stab = s.stab := rfl
@[simp] theorem setBuffer_arena (n : Fin 2) (m : Memory) : (s.setBuffer n m).arena = s.arena := rfl
@[simp] theorem setBuffer_img (n : Fin 2) (m : Memory) : (s.setBuffer n m).img = s.img := rfl
@[simp] theorem setBuffer_handlers (n : Fin 2) (m : Memory) : (s.setBuffer n m).handlers = s.handlers := rfl
@[simp] theorem setBuffer_abuf (n : Fin 2) (m : Memory) : (s.setBuffer n m).abuf = s.abuf := rfl
@[simp] theorem setBuffer_pbuf (n : Fin 2) (m : Memory) : (s.setBuffer n m).pbuf = s.pbuf.set n.val m := rfl
@[simp] theorem setBuffer_rstate (n : Fin 2) (m : Memory) : (s.setBuffer n m).rstate = s.rstate := rfl
@[simp] theorem setBuffer_fault (n : Fin 2) (m : Memory) : (s.setBuffer n m).fault = s.fault := rfl
@[simp] theorem setBuffer_draws (n : Fin 2) (m : Memory) : (s.setBuffer n m).draws = s.draws := rfl
@[simp] theorem setBuffer_calls (n : Fin 2) (m : Memory) : (s.setBuffer n m).calls = s.calls := rfl

/-! ## applyAbuf -/

@[simp] theorem applyAbuf_cfg (n : Option (Fin 2)) : (s.applyAbuf n).cfg = s.cfg := rfl
@[simp] theorem applyAbuf_regs (n : Option (Fin 2)) : (s.applyAbuf n).regs = s.regs := rfl
@[simp] theorem applyAbuf_pc (n : Option (Fin 2)) : (s.applyAbuf n).pc = s.pc := rfl
@[simp] theorem applyAbuf_flags (n : Option (Fin 2)) : (s.applyAbuf n).flags = s.flags := rfl
@[simp] theorem applyAbuf_cs (n : Option (Fin 2)) : (s.applyAbuf n).cs = s.cs := rfl
@[simp] theorem applyAbuf_amap (n : Option (Fin 2)) : (s.applyAbuf n).amap = s.amap := rfl
@[simp] theorem applyAbuf_stab (n : Option (Fin 2)) : (s.applyAbuf n).stab = s.stab := rfl
@[simp] theorem applyAbuf_arena (n : Option (Fin 2)) : (s.applyAbuf n).arena = s.arena := rfl
@[simp] theorem applyAbuf_img (n : Option (Fin 2)) : (s.applyAbuf n).img = s.img := rfl
@[simp] theorem applyAbuf_handlers (n : Option (Fin 2)) : (s.applyAbuf n).handlers = s.handlers := rfl
@[simp] theorem applyAbuf_abuf (n : Option (Fin 2)) : (s.applyAbuf n).abuf = n.getD s.abuf := rfl
@[simp] theorem applyAbuf_pbuf (n : Option (Fin 2)) : (s.applyAbuf n).pbuf = s.pbuf := rfl
@[simp] theorem applyAbuf_rstate (n : Option (Fin 2)) : (s.applyAbuf n).rstate = s.rstate := rfl
@[simp] theorem applyAbuf_fault (n : Option (Fin 2)) : (s.applyAbuf n).fault = s.fault := rfl
@[simp] theorem applyAbuf_draws (n : Option (Fin 2)) : (s.applyAbuf n).draws = s.draws := rfl
@[simp] theorem applyAbuf_calls (n : Option (Fin 2)) : (s.applyAbuf n).calls = s.calls := rfl

/-! ## beginRun -/

@[simp] theorem beginRun_cfg : s.beginRun.cfg = s.cfg := rfl
@[simp] theorem beginRun_regs : s.beginRun.regs = s.regs := rfl
@[simp] theorem beginRun_pc : s.beginRun.pc = s.pc := rfl
@[simp] theorem beginRun_flags : s.beginRun.flags = s.flags := rfl
@[simp] theorem beginRun_cs : s.beginRun.cs = s.cs := rfl
@[simp] theorem beginRun_amap : s.beginRun.amap = s.amap := rfl
@[simp] theorem beginRun_stab : s.beginRun.stab = s.stab := rfl
@[simp] theorem beginRun_arena : s.beginRun.arena = s.arena := rfl
@[simp] theorem beginRun_img : s.beginRun.img = s.img := rfl
@[simp] theorem beginRun_handlers : s.beginRun.handlers = s.handlers := rfl
@[simp] theorem beginRun_abuf : s.beginRun.abuf = s.abuf := rfl
@[simp] theorem beginRun_pbuf : s.beginRun.pbuf = s.pbuf := rfl
@[simp] theorem beginRun_rstate : s.beginRun.rstate = .running := rfl
@[simp] theorem beginRun_fault : s.beginRun.fault = s.fault := rfl
@[simp] theorem beginRun_draws : s.beginRun.draws = s.draws := rfl
@[simp] theorem beginRun_calls : s.beginRun.calls = s.calls := rfl

/-! ## putImage -/

@[simp] theorem putImage_cfg (b : List Byte) : (s.putImage b).cfg = s.cfg := rfl
@[simp] theorem putImage_regs (b : List Byte) : (s.putImage b).regs = s.regs := rfl
@[simp] theorem putImage_pc (b : List Byte) : (s.putImage b).pc = 0 := rfl
@[simp] theorem putImage_flags (b : List Byte) : (s.putImage b).flags = s.flags := rfl
@[simp] theorem putImage_cs (b : List Byte) : (s.putImage b).cs = s.cs := rfl
@[simp] theorem putImage_amap (b : List Byte) : (s.putImage b).amap = s.amap := rfl
@[simp] theorem putImage_stab (b : List Byte) : (s.putImage b).stab = s.stab := rfl
@[simp] theorem putImage_arena (b : List Byte) : (s.putImage b).arena = s.arena := rfl
@[simp] theorem putImage_img (b : List Byte) : (s.putImage b).img = b := rfl
@[simp] theorem putImage_handlers (b : List Byte) : (s.putImage b).handlers = s.handlers := rfl
@[simp] theorem putImage_abuf (b : List Byte) : (s.putImage b).abuf = s.abuf := rfl
@[simp] theorem putImage_pbuf (b : List Byte) : (s.putImage b).pbuf = s.pbuf := rfl
@[simp] theorem putImage_rstate (b : List Byte) : (s.putImage b).rstate = .ready := rfl
@[simp] theorem putImage_fault (b : List Byte) : (s.putImage b).fault = s.fault := rfl
@[simp] theorem putImage_draws (b : List Byte) : (s.putImage b).draws = s.draws := rfl
@[simp] theorem putImage_calls (b : List Byte) : (s.putImage b).calls = s.calls := rfl

end Sys2Proof.Machine
end

