-- ==== Sys2Proof/Laws/Ops.lean ====
section
/-! SUPPORT. One lemma per shared operation that says everything it can do. -/

namespace Sys2Proof.Machine

/-! ## Registers -/

/-- Reading a register after a register write. -/
theorem reg_setReg (s : State) (d r : RegIdx) (v : Word) :
    (s.setReg d v).reg r = if r = d then v else s.reg r := by
  simp only [State.reg, setReg_regs]
  by_cases h : r = d
  · subst h
    simp
  · have : d.val ≠ r.val := fun e => h (Fin.ext e.symm)
    simp [h, this]

@[simp] theorem reg_setReg_self (s : State) (d : RegIdx) (v : Word) :
    (s.setReg d v).reg d = v := by
  simp [reg_setReg]

theorem reg_setReg_ne (s : State) {d r : RegIdx} (h : r ≠ d) (v : Word) :
    (s.setReg d v).reg r = s.reg r := by
  simp [reg_setReg, h]

/-- Registers are read through the field `regs` alone. -/
theorem reg_congr {s t : State} (h : t.regs = s.regs) (r : RegIdx) : t.reg r = s.reg r := by
  simp only [State.reg, h]

/-- An operand's value is read through the field `regs` alone. -/
theorem value_congr {s t : State} (h : t.regs = s.regs) (a : Operand) : t.value a = s.value a := by
  cases a with
  | reg i => exact reg_congr h i
  | imm16 v => rfl
  | lit b => rfl

/-! ## Call stack -/

/-- R30 push. -/
theorem push_eq_some {s t : State} {v : Nat} :
    s.push v = some t ↔ s.cs.length ≠ callDepth ∧ t = { s with cs := s.cs ++ [v] } := by
  unfold State.push
  split
  · simp_all
  · simp_all [eq_comm]

theorem push_eq_none {s : State} {v : Nat} : s.push v = none ↔ s.cs.length = callDepth := by
  unfold State.push
  split <;> simp_all

/-- R30 pop. -/
theorem pop_eq_some {s t : State} {v : Nat} :
    s.pop = some (v, t) ↔ s.cs.getLast? = some v ∧ t = { s with cs := s.cs.dropLast } := by
  unfold State.pop
  split
  · rename_i w h
    rw [h]
    constructor
    · intro e
      simp only [Option.some.injEq, Prod.mk.injEq] at e
      obtain ⟨rfl, rfl⟩ := e
      exact ⟨rfl, rfl⟩
    · rintro ⟨e, rfl⟩
      simp only [Option.some.injEq] at e
      subst e
      rfl
  · rename_i h
    simp [h]

theorem pop_eq_none {s : State} : s.pop = none ↔ s.cs = [] := by
  unfold State.pop
  split
  · rename_i w h
    simp only [reduceCtorEq, false_iff]
    rintro h2
    simp [h2] at h
  · rename_i h
    simpa using h

/-! ## Allocator -/

/-- R60: a successful allocation. -/
theorem allocate_eq_some {s t : State} {n p : Nat} :
    s.allocate n = some (p, t) ↔ firstFit s.cfg.arenaSize s.amap n = some p ∧
      t = { s with amap := markRun s.amap p n, stab := keySet s.stab p n } := by
  unfold State.allocate
  split
  · rename_i q h
    rw [h]
    constructor
    · intro e
      simp only [Option.some.injEq, Prod.mk.injEq] at e
      obtain ⟨rfl, rfl⟩ := e
      exact ⟨rfl, rfl⟩
    · rintro ⟨e, rfl⟩
      simp only [Option.some.injEq] at e
      subst e
      rfl
  · rename_i h
    simp [h]

theorem allocate_eq_none {s : State} {n : Nat} :
    s.allocate n = none ↔ firstFit s.cfg.arenaSize s.amap n = none := by
  unfold State.allocate
  split <;> simp_all

/-- R61: a successful free. -/
theorem free_eq_some {s t : State} {p : Nat} :
    s.free p = some t ↔ ∃ n, keyGet s.stab p = some n ∧
      t = { s with amap := clearRun s.amap p n, stab := keyErase s.stab p } := by
  unfold State.free
  split
  · rename_i n h
    simp [h, eq_comm]
  · rename_i h
    simp [h]

theorem free_eq_none {s : State} {p : Nat} : s.free p = none ↔ keyGet s.stab p = none := by
  unfold State.free
  split <;> simp_all

/-! ## Arena bytes -/

/-- R55: a byte that was written reads as itself and the state is unchanged. -/
theorem memRead_of_some {s : State} {a : Nat} {b : Byte} (h : s.arenaByte a = some b) :
    s.memRead a = (b, s) := by
  simp [State.memRead, h]

/-- R55: a byte never written reads as a draw, which is counted. -/
theorem memRead_of_none {s : State} {a : Nat} (h : s.arenaByte a = none) :
    s.memRead a = (Config.freeByte s.draws a, { s with draws := s.draws + 1 }) := by
  simp [State.memRead, h]

/-- A read changes the count of draws at most. -/
theorem memRead_state (s : State) (a : Nat) :
    (s.memRead a).2 = s ∨ (s.memRead a).2 = { s with draws := s.draws + 1 } := by
  unfold State.memRead
  split
  · exact .inl rfl
  · exact .inr rfl

/-- Reading an arena byte after an arena write. -/
theorem arenaByte_memWrite (s : State) (a a' : Nat) (b : Byte) :
    (s.memWrite a b).arenaByte a' = if a' = a then some b else s.arenaByte a' :=
  read_write s.arena a a' b

/-! ## Pixels -/

/-- Reading a pixel after a whole buffer was replaced. -/
theorem pixel_setBuffer (s : State) (n n' : Fin 2) (m : Memory) (i : Nat) :
    (s.setBuffer n m).pixel n' i = if n' = n then m.read i else s.pixel n' i := by
  simp only [State.pixel, setBuffer_pbuf]
  by_cases h : n' = n
  · subst h
    simp
  · have : n.val ≠ n'.val := fun e => h (Fin.ext e.symm)
    simp [h, this]

/-- Reading a pixel after one pixel was written. -/
theorem pixel_setPixel (s : State) (n n' : Fin 2) (i i' : Nat) (c : Byte) :
    (s.setPixel n i c).pixel n' i' = if n' = n ∧ i' = i then some c else s.pixel n' i' := by
  unfold State.setPixel
  rw [pixel_setBuffer, read_write]
  by_cases h1 : n' = n
  · subst h1
    by_cases h2 : i' = i <;> simp [h2, State.pixel]
  · simp [h1]

/-! ## Handlers -/

/-- A listed answer is what the handler answers (R142, log entry 8). -/
theorem handlerAnswer_listed {s : State} {k : Nat} {h : Handler} {a : HandlerAnswer}
    (hl : h.answers[s.calls]? = some a) : s.handlerAnswer k h = a := by
  simp [State.handlerAnswer, hl]

/-- A property that every single write of a list keeps holds after all of them. -/
theorem foldl_keeps {α : Type} {f : State → α → State} {P : State → Prop}
    (hf : ∀ t w, P t → P (f t w)) : ∀ (ws : List α) (s : State), P s → P (ws.foldl f s)
  | [], _, h => h
  | w :: ws, s, h => foldl_keeps hf ws (f s w) (hf s w h)

/-- All a handler's writes are made of single writes (R142): what each of those keeps, the whole
keeps. The call's count comes last. -/
theorem applyReply_induct {P : State → Prop} (r : HandlerReply) (s : State) (base : P s)
    (hreg : ∀ t i v, P t → P (t.setReg i v))
    (harena : ∀ t a b, a < t.cfg.arenaSize → P t → P (t.memWrite a b))
    (hpix : ∀ t n i c, i < t.cfg.pixels → P t → P (t.setPixel n i c))
    (habuf : ∀ t n, P t → P (t.applyAbuf n)) :
    ∃ t, P t ∧ s.applyReply r = { t with calls := t.calls + 1 } := by
  refine ⟨_, ?_, rfl⟩
  have h1 : P (s.applyRegs r.regs) := foldl_keeps (fun t w h => hreg t _ _ h) _ _ base
  have h2 : P ((s.applyRegs r.regs).applyArena r.arena) := by
    refine foldl_keeps (fun t w h => ?_) _ _ h1
    split
    · rename_i hw
      exact harena _ _ _ hw h
    · exact h
  have h3 : P (((s.applyRegs r.regs).applyArena r.arena).applyPixels r.pixels) := by
    refine foldl_keeps (fun t w h => ?_) _ _ h2
    split
    · rename_i hw
      exact hpix _ _ _ _ hw h
    · exact h
  exact habuf _ _ h3

/-- The parts of the state a handler may not write (R142), as one tuple. -/
def handlerFrame (s : State) :=
  ((s.cfg, s.pc, s.flags, s.cs, s.amap, s.stab), (s.img, s.handlers, s.rstate, s.fault, s.draws))

/-- R142: what a handler may not write, it leaves as it was. -/
theorem applyReply_frame (r : HandlerReply) (s : State) :
    handlerFrame (s.applyReply r) = handlerFrame s ∧ (s.applyReply r).calls = s.calls + 1 := by
  obtain ⟨t, ⟨h1, h2⟩, ht⟩ := applyReply_induct
    (P := fun t => handlerFrame t = handlerFrame s ∧ t.calls = s.calls) r s ⟨rfl, rfl⟩
    (fun _ _ _ h => h) (fun _ _ _ _ h => h) (fun _ _ _ _ _ h => h) (fun _ _ h => h)
  rw [ht]
  exact ⟨h1, congrArg (· + 1) h2⟩

/-- Canonical, bounded memories (the invariant's clauses about the arena and the pixel buffers). -/
structure MemoriesOk (s : State) : Prop where
  arenaWf : s.arena.wf = true
  arenaBelow : s.arena.below s.cfg.arenaSize = true
  pixelsWf : ∀ n : Fin 2, s.pbuf[n.val].wf = true
  pixelsBelow : ∀ n : Fin 2, s.pbuf[n.val].below s.cfg.pixels = true

theorem memoriesOk_memWrite {s : State} (h : MemoriesOk s) {a : Nat} (ha : a < s.cfg.arenaSize)
    (b : Byte) : MemoriesOk (s.memWrite a b) :=
  ⟨wf_write h.arenaWf _ _, below_write h.arenaBelow ha _, h.pixelsWf, h.pixelsBelow⟩

theorem memoriesOk_setBuffer {s : State} (h : MemoriesOk s) (n : Fin 2) {m : Memory}
    (hw : m.wf = true) (hb : m.below s.cfg.pixels = true) : MemoriesOk (s.setBuffer n m) := by
  refine ⟨h.arenaWf, h.arenaBelow, fun n' => ?_, fun n' => ?_⟩
  · simp only [setBuffer_pbuf, Vector.getElem_set]
    split
    · exact hw
    · exact h.pixelsWf n'
  · simp only [setBuffer_pbuf, setBuffer_cfg, Vector.getElem_set]
    split
    · exact hb
    · exact h.pixelsBelow n'

theorem memoriesOk_setPixel {s : State} (h : MemoriesOk s) (n : Fin 2) {i : Nat}
    (hi : i < s.cfg.pixels) (c : Byte) : MemoriesOk (s.setPixel n i c) :=
  memoriesOk_setBuffer h n (wf_write (h.pixelsWf n) _ _) (below_write (h.pixelsBelow n) hi _)

/-- A handler's writes keep the memories canonical and bounded. -/
theorem memoriesOk_applyReply {s : State} (r : HandlerReply) (h : MemoriesOk s) :
    MemoriesOk (s.applyReply r) := by
  obtain ⟨t, h1, ht⟩ := applyReply_induct (P := MemoriesOk) r s h
    (fun _ _ _ h => ⟨h.1, h.2, h.3, h.4⟩) (fun _ _ _ ha h => memoriesOk_memWrite h ha _)
    (fun _ _ _ _ hi h => memoriesOk_setPixel h _ hi _) (fun _ _ h => ⟨h.1, h.2, h.3, h.4⟩)
  rw [ht]
  exact ⟨h1.1, h1.2, h1.3, h1.4⟩

/-! ## Arithmetic -/

/-- ADD is addition of 16-bit patterns, whichever way they are read (R161). -/
theorem aluAdd_eq (a b : Word) : aluAdd a b = a + b := by
  apply BitVec.eq_of_toNat_eq
  simp only [aluAdd, wrap16, uint, BitVec.toNat_ofInt, BitVec.toNat_add]
  omega

/-- SUB is subtraction of 16-bit patterns (R162). -/
theorem aluSub_eq (a b : Word) : aluSub a b = a - b := by
  apply BitVec.eq_of_toNat_eq
  have ha := a.isLt
  have hb := b.isLt
  simp only [aluSub, wrap16, uint, BitVec.toNat_ofInt, BitVec.toNat_sub]
  omega

/-- MUL is multiplication of 16-bit patterns (R163). -/
theorem aluMul_eq (a b : Word) : aluMul a b = a * b := by
  apply BitVec.eq_of_toNat_eq
  simp only [aluMul, wrap16, uint, BitVec.toNat_ofInt, BitVec.toNat_mul]
  norm_cast

/-- R57: the sum of 16-bit patterns, read as unsigned. -/
theorem effectiveAddress_eq (p o : Word) : effectiveAddress p o = (p + o).toNat := by
  rw [← aluAdd_eq]
  rfl

theorem effectiveAddress_lt (p o : Word) : effectiveAddress p o < 65536 := by
  rw [effectiveAddress_eq]
  exact (p + o).isLt

end Sys2Proof.Machine
end

