-- ==== Sys2Proof/Laws/PerInstr.lean ====
section
/-! SUPPORT. Facts about every instruction as syntax, one lemma per constructor. Family Length: the
encoder writes exactly `size` bytes, and an instruction is 1 to 10 bytes long (30_encoding.md R80,
R83, R84). -/

namespace Sys2Proof.Laws.Length

/-- R80, R84. -/
def Statement (i : Instr) : Prop :=
  (∀ cfg, (encode cfg i).length = i.size) ∧ 1 ≤ i.size ∧ i.size ≤ maxInstrBytes

theorem of_sources {i : Instr} (h : i.sources.length ≤ 3)
    (hd : i.dest?.isSome = true → i.sources.length ≤ 2) : Statement i := by
  have hsum : ∀ l : List Operand, (l.map Operand.size).sum ≤ 3 * l.length := by
    intro l
    induction l with
    | nil => simp
    | cons a l ih =>
      have := operandSize_bounds a
      simp only [List.map_cons, List.sum_cons, List.length_cons]
      omega
  have hs := hsum i.sources
  refine ⟨fun cfg => ?_, ?_, ?_⟩
  · have hb : (fun a => (Operand.bytes cfg a).length) = Operand.size :=
      funext (length_operandBytes cfg)
    simp only [encode, Instr.size, List.length_cons, List.length_append, List.length_flatMap, hb]
    cases i.dest? with
    | none => simp [Nat.add_comm]
    | some d => simp; omega
  · simp only [Instr.size]
    omega
  · simp only [Instr.size, maxInstrBytes]
    cases hdest : i.dest? with
    | none => simp; omega
    | some d =>
      have := hd (by simp [hdest])
      simp
      omega

theorem nop : Statement .nop := of_sources (by simp [Instr.sources]) (by simp [Instr.sources, Instr.dest?])
theorem sys (k : Operand) : Statement (.sys k) := of_sources (by simp [Instr.sources]) (by simp [Instr.sources, Instr.dest?])
theorem mov (d : RegIdx) (a : Operand) : Statement (.mov d a) := of_sources (by simp [Instr.sources]) (by simp [Instr.sources, Instr.dest?])
theorem add (d : RegIdx) (a : Operand) (b : Operand) : Statement (.add d a b) := of_sources (by simp [Instr.sources]) (by simp [Instr.sources, Instr.dest?])
theorem sub (d : RegIdx) (a : Operand) (b : Operand) : Statement (.sub d a b) := of_sources (by simp [Instr.sources]) (by simp [Instr.sources, Instr.dest?])
theorem mul (d : RegIdx) (a : Operand) (b : Operand) : Statement (.mul d a b) := of_sources (by simp [Instr.sources]) (by simp [Instr.sources, Instr.dest?])
theorem div (d : RegIdx) (a : Operand) (b : Operand) : Statement (.div d a b) := of_sources (by simp [Instr.sources]) (by simp [Instr.sources, Instr.dest?])
theorem cmp (a : Operand) (b : Operand) : Statement (.cmp a b) := of_sources (by simp [Instr.sources]) (by simp [Instr.sources, Instr.dest?])
theorem jmp (t : Operand) : Statement (.jmp t) := of_sources (by simp [Instr.sources]) (by simp [Instr.sources, Instr.dest?])
theorem jeq (t : Operand) : Statement (.jeq t) := of_sources (by simp [Instr.sources]) (by simp [Instr.sources, Instr.dest?])
theorem jne (t : Operand) : Statement (.jne t) := of_sources (by simp [Instr.sources]) (by simp [Instr.sources, Instr.dest?])
theorem jlt (t : Operand) : Statement (.jlt t) := of_sources (by simp [Instr.sources]) (by simp [Instr.sources, Instr.dest?])
theorem jgt (t : Operand) : Statement (.jgt t) := of_sources (by simp [Instr.sources]) (by simp [Instr.sources, Instr.dest?])
theorem bra (t : Operand) : Statement (.bra t) := of_sources (by simp [Instr.sources]) (by simp [Instr.sources, Instr.dest?])
theorem beq (t : Operand) : Statement (.beq t) := of_sources (by simp [Instr.sources]) (by simp [Instr.sources, Instr.dest?])
theorem bne (t : Operand) : Statement (.bne t) := of_sources (by simp [Instr.sources]) (by simp [Instr.sources, Instr.dest?])
theorem blt (t : Operand) : Statement (.blt t) := of_sources (by simp [Instr.sources]) (by simp [Instr.sources, Instr.dest?])
theorem bgt (t : Operand) : Statement (.bgt t) := of_sources (by simp [Instr.sources]) (by simp [Instr.sources, Instr.dest?])
theorem ret : Statement .ret := of_sources (by simp [Instr.sources]) (by simp [Instr.sources, Instr.dest?])
theorem alc (d : RegIdx) (n : Operand) : Statement (.alc d n) := of_sources (by simp [Instr.sources]) (by simp [Instr.sources, Instr.dest?])
theorem fre (p : Operand) : Statement (.fre p) := of_sources (by simp [Instr.sources]) (by simp [Instr.sources, Instr.dest?])
theorem stb (p : Operand) (o : Operand) (v : Operand) : Statement (.stb p o v) := of_sources (by simp [Instr.sources]) (by simp [Instr.sources, Instr.dest?])
theorem ldb (d : RegIdx) (p : Operand) (o : Operand) : Statement (.ldb d p o) := of_sources (by simp [Instr.sources]) (by simp [Instr.sources, Instr.dest?])
theorem pix (x : Operand) (y : Operand) (c : Operand) : Statement (.pix x y c) := of_sources (by simp [Instr.sources]) (by simp [Instr.sources, Instr.dest?])
theorem cls (c : Operand) : Statement (.cls c) := of_sources (by simp [Instr.sources]) (by simp [Instr.sources, Instr.dest?])

end Sys2Proof.Laws.Length
end

