-- ==== Sys2Proof/Laws/Exec.lean ====
section
/-! SUPPORT. What an instruction and a step can do, each said once: the coarse effect of `exec`, the
three ways a running step goes, and a handler's reply write by write. -/

namespace Sys2Proof.Machine

/-! ## Lengths -/

/-- The encoder writes `size` bytes (30_encoding.md R84), so `pcAfter` is the next instruction's
address (10_state.md R23). -/
theorem length_encode (cfg : Config) (i : Instr) : (encode cfg i).length = i.size := by
  cases i
  all_goals first
    | exact Laws.Length.nop.1 cfg
    | exact (Laws.Length.of_sources (by simp [Instr.sources])
        (by simp [Instr.sources, Instr.dest?])).1 cfg

theorem nextAddress_eq (i : Instr) (s : State) : nextAddress i s = s.pcAfter i := by
  rw [nextAddress, length_encode, State.pcAfter]

/-! ## Reading through an update -/

@[simp] theorem reg_past (s : State) (i : Instr) (r : RegIdx) : (s.past i).reg r = s.reg r := rfl
@[simp] theorem reg_setPc (s : State) (t : Nat) (r : RegIdx) : (s.setPc t).reg r = s.reg r := rfl
@[simp] theorem reg_halt (s : State) (r : RegIdx) : s.halt.reg r = s.reg r := rfl
@[simp] theorem reg_raise (s : State) (k : FaultKind) (a : Nat) (r : RegIdx) :
    (s.raise k a).reg r = s.reg r := rfl

/-- Taking a fault at `pc` is `FaultTaken` (60_exceptions.md R236). -/
theorem faultTaken_raise (k : FaultKind) (s : State) : FaultTaken k s (s.raise k s.pc) :=
  ⟨rfl, rfl, by constructor <;> simp [State.arenaByte, State.pixel]⟩

/-- The allocator's invariant is about the map, the table and the arena's size alone. -/
theorem allocInv_congr {s t : State} (h1 : t.amap = s.amap) (h2 : t.stab = s.stab)
    (h3 : t.cfg = s.cfg) (h : AllocInv s) : AllocInv t :=
  ⟨by rw [h1, h2]; exact h.1, by rw [h2]; exact h.2, by rw [h2, h3]; exact h.3,
    by rw [h2]; exact h.4⟩

/-! ## Narrowing and widening -/

theorem toNat_trunc8 (v : Word) : (trunc8 v).toNat = uint v % 256 := by
  simp [trunc8, uint]

theorem uint_zext16 (b : Byte) : uint (zext16 b) = b.toNat := by
  have := b.isLt
  simp only [zext16, uint, BitVec.toNat_setWidth]
  omega

theorem uint_wrap16_ofNat {p : Nat} (h : p < 65536) : uint (wrap16 (p : Int)) = p := by
  simp only [uint, wrap16, BitVec.toNat_ofInt]
  omega

theorem sint_bounds (v : Word) : -32768 ≤ sint v ∧ sint v ≤ 32767 := by
  have := v.isLt
  simp only [sint, BitVec.toInt_eq_toNat_cond]
  split <;> omega

theorem sint_of_nonneg {v : Word} (h : 0 ≤ sint v) : sint v = uint v := by
  have := v.isLt
  simp only [sint, uint, BitVec.toInt_eq_toNat_cond] at *
  split at h <;> simp_all
  omega

theorem sint_wrap16 {n : Int} (h1 : -32768 ≤ n) (h2 : n ≤ 32767) : sint (wrap16 n) = n := by
  simp only [sint, wrap16, BitVec.toInt_ofInt]
  rw [Int.bmod_eq_of_le] <;> omega

/-! ## First fit in terms of free runs -/

theorem freeRun_iff {s : State} {p n : Nat} :
    FreeRun s p n ↔ p + n ≤ s.cfg.arenaSize ∧ runFree s.amap p n = true := by
  rw [runFree_iff]
  exact Iff.rfl

/-- R60: the answer of the scan is a free run, and the lowest. -/
theorem firstFit_freeRun {s : State} {n p : Nat}
    (h : firstFit s.cfg.arenaSize s.amap n = some p) :
    FreeRun s p n ∧ ∀ q, FreeRun s q n → p ≤ q := by
  rw [firstFit_some] at h
  refine ⟨freeRun_iff.2 ⟨h.1, h.2.1⟩, fun q hq => ?_⟩
  by_contra hc
  have := h.2.2 q (by omega)
  rw [(freeRun_iff.1 hq).2] at this
  cases this

/-- R60: the scan answers whenever some run is free. -/
theorem firstFit_isSome {s : State} {n : Nat} (h : ∃ p, FreeRun s p n) :
    ∃ p, firstFit s.cfg.arenaSize s.amap n = some p := by
  obtain ⟨p, hp⟩ := h
  cases hh : firstFit s.cfg.arenaSize s.amap n with
  | some q => exact ⟨q, rfl⟩
  | none =>
    have := firstFit_none.1 hh p hp.1
    rw [(freeRun_iff.1 hp).2] at this
    cases this

/-! ## A handler's reply, write by write (41_system.md R142) -/

theorem lastWrite_append {κ α : Type} [DecidableEq κ] (ws : List (κ × α)) (w : κ × α) (k : κ) :
    lastWrite (ws ++ [w]) k = if w.1 = k then some w.2 else lastWrite ws k := by
  simp only [lastWrite, List.reverse_append, List.reverse_cons, List.reverse_nil, List.nil_append,
    List.singleton_append, List.find?_cons]
  by_cases h : w.1 = k <;> simp [h]

theorem applyRegs_append (ws : List (RegIdx × Word)) (w : RegIdx × Word) (s : State) :
    s.applyRegs (ws ++ [w]) = (s.applyRegs ws).setReg w.1 w.2 := by
  rw [State.applyRegs, List.foldl_append]
  rfl

theorem applyArena_append (ws : List Host.Cell) (w : Host.Cell) (s : State) :
    s.applyArena (ws ++ [w]) = if w.1 < (s.applyArena ws).cfg.arenaSize
      then (s.applyArena ws).memWrite w.1 w.2 else s.applyArena ws := by
  rw [State.applyArena, List.foldl_append]
  rfl

theorem applyPixels_append (ws : List (Fin 2 × Host.Cell)) (w : Fin 2 × Host.Cell) (s : State) :
    s.applyPixels (ws ++ [w]) = if w.2.1 < (s.applyPixels ws).cfg.pixels
      then (s.applyPixels ws).setPixel w.1 w.2.1 w.2.2 else s.applyPixels ws := by
  rw [State.applyPixels, List.foldl_append]
  rfl

/-- Register writes change the registers alone. -/
theorem applyRegs_only (ws : List (RegIdx × Word)) (s : State) :
    s.applyRegs ws = { s with regs := (s.applyRegs ws).regs } := by
  induction ws using List.reverseRecOn with
  | nil => rfl
  | append_singleton ws w ih => rw [applyRegs_append, ih]; rfl

/-- Arena writes change the arena alone. -/
theorem applyArena_only (ws : List Host.Cell) (s : State) :
    s.applyArena ws = { s with arena := (s.applyArena ws).arena } := by
  induction ws using List.reverseRecOn with
  | nil => rfl
  | append_singleton ws w ih =>
    rw [applyArena_append]
    split
    · rw [ih]; rfl
    · exact ih

/-- Pixel writes change the pixel buffers alone. -/
theorem applyPixels_only (ws : List (Fin 2 × Host.Cell)) (s : State) :
    s.applyPixels ws = { s with pbuf := (s.applyPixels ws).pbuf } := by
  induction ws using List.reverseRecOn with
  | nil => rfl
  | append_singleton ws w ih =>
    rw [applyPixels_append]
    split
    · rw [ih]; rfl
    · exact ih

theorem reg_applyRegs (ws : List (RegIdx × Word)) (s : State) (i : RegIdx) :
    (s.applyRegs ws).reg i = (lastWrite ws i).getD (s.reg i) := by
  induction ws using List.reverseRecOn with
  | nil => rfl
  | append_singleton ws w ih =>
    rw [applyRegs_append, lastWrite_append, reg_setReg, ih]
    by_cases h : i = w.1
    · simp [h]
    · rw [if_neg h, if_neg (Ne.symm h)]

theorem arenaByte_applyArena (ws : List Host.Cell) (s : State) (a : Nat) :
    (s.applyArena ws).arenaByte a =
      if a < s.cfg.arenaSize then (lastWrite ws a).or (s.arenaByte a) else s.arenaByte a := by
  induction ws using List.reverseRecOn with
  | nil => simp only [lastWrite, List.reverse_nil, List.find?_nil, Option.map_none, Option.none_or,
      ite_self]; rfl
  | append_singleton ws w ih =>
    have hc : (s.applyArena ws).cfg = s.cfg := by rw [applyArena_only]
    rw [applyArena_append, lastWrite_append, hc]
    by_cases e : a = w.1
    · subst e
      split
      · rw [arenaByte_memWrite, if_pos rfl]; simp
      · rw [ih, if_neg ‹_›]
    · split
      · rw [arenaByte_memWrite, if_neg e, ih, if_neg (Ne.symm e)]
      · rw [ih, if_neg (Ne.symm e)]

theorem pixel_applyPixels (ws : List (Fin 2 × Host.Cell)) (s : State) (n : Fin 2) (i : Nat) :
    (s.applyPixels ws).pixel n i =
      if i < s.cfg.pixels then
        (lastWrite (ws.map fun w => ((w.1, w.2.1), w.2.2)) (n, i)).or (s.pixel n i)
      else s.pixel n i := by
  induction ws using List.reverseRecOn with
  | nil => simp only [List.map_nil, lastWrite, List.reverse_nil, List.find?_nil, Option.map_none,
      Option.none_or, ite_self]; rfl
  | append_singleton ws w ih =>
    have hc : (s.applyPixels ws).cfg = s.cfg := by rw [applyPixels_only]
    rw [applyPixels_append, List.map_append, List.map_cons, List.map_nil, lastWrite_append, hc]
    by_cases e : (w.1, w.2.1) = (n, i)
    · simp only [Prod.mk.injEq] at e
      obtain ⟨rfl, rfl⟩ := e
      split
      · rw [pixel_setPixel, if_pos ⟨rfl, rfl⟩]; simp
      · rw [ih, if_neg ‹_›]
    · rw [if_neg e]
      split
      · rw [pixel_setPixel, if_neg (fun h => e (by rw [h.1, h.2])), ih]
      · exact ih

/-- All a reply writes: each register, arena byte and pixel holds the last value written to it, if
that exists, and the selector the value written. -/
theorem applyReply_reads (r : HandlerReply) (s : State) :
    (∀ i, (s.applyReply r).reg i = (lastWrite r.regs i).getD (s.reg i)) ∧
    (∀ a, (s.applyReply r).arenaByte a =
      if a < s.cfg.arenaSize then (lastWrite r.arena a).or (s.arenaByte a) else s.arenaByte a) ∧
    (∀ n i, (s.applyReply r).pixel n i =
      if i < s.cfg.pixels then
        (lastWrite (r.pixels.map fun w => ((w.1, w.2.1), w.2.2)) (n, i)).or (s.pixel n i)
      else s.pixel n i) ∧
    (s.applyReply r).abuf = r.abuf.getD s.abuf := by
  have h1 := applyRegs_only r.regs s
  have h2 := applyArena_only r.arena (s.applyRegs r.regs)
  have h3 := applyPixels_only r.pixels ((s.applyRegs r.regs).applyArena r.arena)
  have c1 : (s.applyRegs r.regs).cfg = s.cfg := by rw [h1]
  have c2 : ((s.applyRegs r.regs).applyArena r.arena).cfg = s.cfg := by rw [h2]; exact c1
  refine ⟨fun i => ?_, fun a => ?_, fun n i => ?_, ?_⟩
  · rw [← reg_applyRegs]
    refine reg_congr ?_ i
    show (((s.applyRegs r.regs).applyArena r.arena).applyPixels r.pixels).regs = _
    rw [h3, h2]
  · have e := arenaByte_applyArena r.arena (s.applyRegs r.regs) a
    rw [c1] at e
    have e1 : (s.applyRegs r.regs).arenaByte a = s.arenaByte a := by rw [h1]; rfl
    rw [e1] at e
    rw [← e]
    show (((s.applyRegs r.regs).applyArena r.arena).applyPixels r.pixels).arenaByte a = _
    rw [h3]
    rfl
  · have e := pixel_applyPixels r.pixels ((s.applyRegs r.regs).applyArena r.arena) n i
    rw [c2] at e
    have e1 : ((s.applyRegs r.regs).applyArena r.arena).pixel n i = s.pixel n i := by
      rw [h2, h1]; rfl
    rw [e1] at e
    exact e
  · show r.abuf.getD (((s.applyRegs r.regs).applyArena r.arena).applyPixels r.pixels).abuf = _
    rw [h3, h2, h1]

/-- R141: after a reply only the run state depends on the status. -/
theorem finishCall_eq (r : HandlerReply) (s : State) :
    s.finishCall r =
      { s.applyReply r with rstate := if r.status = 0 then s.rstate else .halted } := by
  obtain ⟨hf, -⟩ := applyReply_frame r s
  simp only [handlerFrame, Prod.mk.injEq] at hf
  unfold State.finishCall
  split
  · rw [← hf.2.2.2.1]
  · rfl

/-! ## What exec can do -/

/-- The effect of an instruction that raises no fault, part by part: what may have changed, and in
which instructions. -/
structure Effect (i : Instr) (s t : State) : Prop where
  cfg : t.cfg = s.cfg
  img : t.img = s.img
  handlers : t.handlers = s.handlers
  fault : t.fault = s.fault
  rstate : t.rstate = s.rstate ∨ (i.mnemonic = .sys ∧ t.rstate = .halted)
  regs : ∀ r, t.reg r ≠ s.reg r → i.dest? = some r ∨ i.mnemonic = .sys
  flags : t.flags ≠ s.flags → i.mnemonic = .cmp
  cs : t.cs ≠ s.cs → i.mnemonic ∈ [Mnemonic.bra, .beq, .bne, .blt, .bgt, .ret]
  allocator : t.amap ≠ s.amap ∨ t.stab ≠ s.stab → i.mnemonic ∈ [Mnemonic.alc, .fre]
  arena : t.arena ≠ s.arena → i.mnemonic ∈ [Mnemonic.stb, .sys]
  pixels : t.pbuf ≠ s.pbuf → i.mnemonic ∈ [Mnemonic.pix, .cls, .sys]
  abuf : t.abuf ≠ s.abuf → i.mnemonic = .sys
  draws : t.draws ≠ s.draws → i.mnemonic = .ldb

theorem effect_writeResult {i : Instr} {d : RegIdx} (hd : i.dest? = some d) (v : Word)
    (s : State) : Effect i s (s.writeResult i d v) := by
  constructor <;> simp only [State.writeResult, past_cfg, past_img, past_handlers, past_fault,
    past_rstate, past_flags, past_cs, past_amap, past_stab, past_arena, past_pbuf, past_abuf,
    past_draws, setReg_cfg, setReg_img, setReg_handlers, setReg_fault, setReg_rstate, setReg_flags,
    setReg_cs, setReg_amap, setReg_stab, setReg_arena, setReg_pbuf, setReg_abuf, setReg_draws,
    reg_past, reg_setReg, ne_eq, not_true_eq_false, or_self, false_implies, true_or]
  intro r hr
  left
  rw [hd]
  by_contra hne
  exact hr (if_neg fun e => hne (by rw [e]))

theorem effect_jump (i : Instr) (a : Operand) (b : Bool) (s : State) :
    Effect i s (s.jump i a b) := by
  unfold State.jump
  split <;> constructor <;> simp

theorem effect_branchLink {i : Instr} (hr : mayRaise i = [.callStackOverflow])
    (hi : i.mnemonic ∈ [Mnemonic.bra, .beq, .bne, .blt, .bgt, .ret]) (a : Operand) (b : Bool)
    (s : State) :
    (∃ k ∈ mayRaise i, s.branchLink i a b = s.raise k s.pc) ∨ Effect i s (s.branchLink i a b) := by
  unfold State.branchLink
  split
  · split
    · rename_i s' hp
      obtain ⟨-, rfl⟩ := push_eq_some.1 hp
      right
      constructor <;> simp [State.reg]
      simpa using hi
    · exact .inl ⟨.callStackOverflow, by simp [hr], rfl⟩
  · right
    constructor <;> simp

/-- Every instruction gives a next state (60_exceptions.md R236: a fault is one too). -/
theorem exec_next (i : Instr) (s : State) : ∃ t, exec i s = .next t := by
  cases i <;> simp only [exec, execNop, execSys, execMov, execAdd, execSub, execMul, execDiv,
    execCmp, execJmp, execJeq, execJne, execJlt, execJgt, execBra, execBeq, execBne, execBlt,
    execBgt, execRet, execAlc, execFre, execStb, execLdb, execPix, execCls]
  all_goals repeat' split
  all_goals exact ⟨_, rfl⟩

/-- `exec` raises one of the instruction's own faults at `pc`, or has its effect. -/
theorem exec_cases {i : Instr} {s t : State} (h : exec i s = .next t) :
    (∃ k ∈ mayRaise i, t = s.raise k s.pc) ∨ Effect i s t := by
  have dest : ∀ {d r : RegIdx} {v : Word} {u : State}, u.regs = s.regs →
      (u.setReg d v).reg r ≠ s.reg r → d = r := by
    intro d r v u hu hr
    rw [reg_setReg] at hr
    by_contra hne
    rw [if_neg (Ne.symm hne)] at hr
    exact hr (reg_congr hu r)
  cases i with
  | nop => cases h; right; constructor <;> simp
  | mov d a => cases h; exact .inr (effect_writeResult rfl _ s)
  | add d a b => cases h; exact .inr (effect_writeResult rfl _ s)
  | sub d a b => cases h; exact .inr (effect_writeResult rfl _ s)
  | mul d a b => cases h; exact .inr (effect_writeResult rfl _ s)
  | div d a b =>
    simp only [exec, execDiv] at h
    split at h <;> cases h
    · exact .inl ⟨_, by simp [mayRaise], rfl⟩
    · exact .inr (effect_writeResult rfl _ s)
  | cmp a b => cases h; right; constructor <;> simp [State.reg, Instr.mnemonic]
  | jmp a => cases h; exact .inr (effect_jump _ _ _ s)
  | jeq a => cases h; exact .inr (effect_jump _ _ _ s)
  | jne a => cases h; exact .inr (effect_jump _ _ _ s)
  | jlt a => cases h; exact .inr (effect_jump _ _ _ s)
  | jgt a => cases h; exact .inr (effect_jump _ _ _ s)
  | bra a => cases h; exact effect_branchLink rfl (by simp [Instr.mnemonic]) _ _ s
  | beq a => cases h; exact effect_branchLink rfl (by simp [Instr.mnemonic]) _ _ s
  | bne a => cases h; exact effect_branchLink rfl (by simp [Instr.mnemonic]) _ _ s
  | blt a => cases h; exact effect_branchLink rfl (by simp [Instr.mnemonic]) _ _ s
  | bgt a => cases h; exact effect_branchLink rfl (by simp [Instr.mnemonic]) _ _ s
  | ret =>
    simp only [exec, execRet] at h
    split at h <;> cases h
    · rename_i v s' hp
      obtain ⟨-, rfl⟩ := pop_eq_some.1 hp
      right; constructor <;> simp [State.reg, Instr.mnemonic]
    · exact .inl ⟨_, by simp [mayRaise], rfl⟩
  | alc d n =>
    simp only [exec, execAlc] at h
    split at h
    · cases h; exact .inl ⟨_, by simp [mayRaise], rfl⟩
    · split at h <;> cases h
      · rename_i p s' hp
        obtain ⟨-, rfl⟩ := allocate_eq_some.1 hp
        right
        constructor <;> simp [Instr.mnemonic]
        intro r hr
        exact congrArg some (dest rfl hr)
      · exact .inl ⟨_, by simp [mayRaise], rfl⟩
  | fre p =>
    simp only [exec, execFre] at h
    split at h <;> cases h
    · rename_i s' hp
      obtain ⟨n, -, rfl⟩ := free_eq_some.1 hp
      right; constructor <;> simp [Instr.mnemonic, State.reg]
    · exact .inl ⟨_, by simp [mayRaise], rfl⟩
  | stb p o v =>
    simp only [exec, execStb] at h
    split at h <;> cases h
    · right; constructor <;> simp [Instr.mnemonic, State.reg]
    · exact .inl ⟨_, by simp [mayRaise], rfl⟩
  | ldb d p o =>
    simp only [exec, execLdb] at h
    split at h <;> cases h
    · right
      rcases memRead_state s (effectiveAddress (s.value p) (s.value o)) with hm | hm <;> rw [hm] <;>
        constructor <;> simp [Instr.mnemonic] <;> intro r hr <;>
        exact congrArg some (dest rfl hr)
    · exact .inl ⟨_, by simp [mayRaise], rfl⟩
  | pix x y c =>
    simp only [exec, execPix] at h
    split at h <;> cases h
    · right
      constructor <;> simp [Instr.mnemonic, State.reg, State.pixWrite, State.setPixel]
    · exact .inl ⟨_, by simp [mayRaise], rfl⟩
  | cls c =>
    cases h
    right
    constructor <;> simp [Instr.mnemonic, State.reg, State.pixFill]
  | sys k =>
    simp only [exec, execSys] at h
    split at h
    · cases h; exact .inl ⟨_, by simp [mayRaise], rfl⟩
    · split at h <;> cases h
      · rename_i r _
        right
        obtain ⟨hf, -⟩ := applyReply_frame r (s.past (.sys k))
        simp only [handlerFrame, Prod.mk.injEq] at hf
        obtain ⟨⟨f1, f2, f3, f4, f5, f6⟩, f7, f8, f9, f10, f11⟩ := hf
        rw [finishCall_eq]
        constructor <;> simp_all [Instr.mnemonic]
        by_cases h0 : r.status = 0 <;> simp [h0]
      · right; constructor <;> simp

/-! ## Allocation and release -/

/-- R200: ALC raises a fault, or the block of the first fit is marked, recorded and pointed to. -/
theorem execAlc_cases {s t : State} {d : RegIdx} {n : Operand} (h : execAlc d n s = .next t) :
    (∃ k, t = s.raise k s.pc) ∨
    (uint (s.value n) ≠ 0 ∧ ∃ p,
      firstFit s.cfg.arenaSize s.amap (uint (s.value n)) = some p ∧
      t = ((State.setReg d (wrap16 p)
        { s with
          amap := markRun s.amap p (uint (s.value n))
          stab := keySet s.stab p (uint (s.value n)) }).past (.alc d n))) := by
  simp only [execAlc] at h
  split at h
  · cases h; exact .inl ⟨_, rfl⟩
  · rename_i h0
    split at h <;> cases h
    · rename_i p s' hp
      obtain ⟨hfit, rfl⟩ := allocate_eq_some.1 hp
      exact .inr ⟨h0, p, hfit, rfl⟩
    · exact .inl ⟨_, rfl⟩

/-- R202: FRE raises a fault, or the block at the pointer is unmarked and its record removed. -/
theorem execFre_cases {s t : State} {p : Operand} (h : execFre p s = .next t) :
    (∃ k, t = s.raise k s.pc) ∨
    (∃ n, keyGet s.stab (uint (s.value p)) = some n ∧
      t = (State.past (.fre p)
        { s with
          amap := clearRun s.amap (uint (s.value p)) n
          stab := keyErase s.stab (uint (s.value p)) })) := by
  simp only [execFre] at h
  split at h <;> cases h
  · rename_i s' hp
    obtain ⟨n, hlive, rfl⟩ := free_eq_some.1 hp
    exact .inr ⟨n, hlive, rfl⟩
  · exact .inl ⟨_, rfl⟩

/-! ## What a step can do -/

/-- The three ways a step of a running block goes (40_execution_loop.md R121, R123). -/
theorem step_running_cases {s : State} (h : s.rstate = .running) :
    (s.img.length ≤ s.pc ∧ step s = .next s.halt) ∨
    (s.pc < s.img.length ∧ ∃ e, decode s.cfg (s.img.drop s.pc) = .error e ∧
      step s = .next (s.raise (faultOfDecode e) s.pc)) ∨
    (s.pc < s.img.length ∧ ∃ i rest, decode s.cfg (s.img.drop s.pc) = .ok (i, rest) ∧
      step s = exec i s) := by
  simp only [step, h, runningStep, State.fetchBytes]
  by_cases hp : s.img.length ≤ s.pc
  · exact .inl ⟨hp, if_pos hp⟩
  · simp only [if_neg hp]
    right
    cases hd : decode s.cfg (s.img.drop s.pc) with
    | error e => exact .inl ⟨by omega, e, rfl, rfl⟩
    | ok v => exact .inr ⟨by omega, v.1, v.2, rfl, rfl⟩

/-- A step that changes nothing is repeated for ever. -/
theorem runSteps_fixed {s : State} (h : step s = .next s) (n : Nat) : runSteps n s = s := by
  induction n with
  | zero => rfl
  | succ n ih => simp only [runSteps, h, ih]

/-- The same of the host's interface, whose runs end at the first fault or refusal: there is none. -/
theorem coreRun_fixed {s : State} (h : step s = .next s) (n : Nat) :
    Sys2Proof.core.run n s = .next s := by
  have h' : Sys2Proof.core.step s = .next s := h
  induction n with
  | zero => rfl
  | succ n ih => simp only [Host.Core.run, h', ih]

/-! ## Reset -/

/-- Memory lists nothing at reset, which is the canonical form. -/
theorem reset_arena_wf : State.reset.arena.wf = true := rfl

theorem reset_pbuf_wf (n : Fin 2) : State.reset.pbuf[n.val].wf = true := by
  revert n
  decide

end Sys2Proof.Machine
end

