-- ==== Sys2Proof/Tests/Slice0.lean ====
section
/-! SUPPORT. Tests with results from spec/ (the vectors of 95_test_vectors.md are named V-…; other
words are written out from 30_encoding.md), and a witness for the hypotheses of every statement. -/

namespace Sys2Proof.Tests

open Sys2Proof Sys2Proof.Machine

/-! ## Helpers -/

/-- The start state of 95_test_vectors.md section 0 with an image, the run begun, no handlers. -/
def machine (img : List Byte) : State :=
  { State.create Config.default with img := img, rstate := .running }

/-- `machine img` with some registers set. -/
def withRegs (img : List Byte) (ws : List (RegIdx × Word)) : State := (machine img).applyRegs ws

/-- The state after one step. -/
def stepped (s : State) : State := runSteps 1 s

/-- One live block of 4 bytes at 0 (95_test_vectors.md 1.2), byte 0 written. -/
def oneBlock (img : List Byte) : State :=
  { machine img with amap := 0b1111, stab := [(0, 4)], arena := [(0, 65)] }

/-- A handler that answers its first calls as listed. -/
def handler (rs : List HandlerReply) : Handler := { answers := rs.map .returns }

/-- A reply that writes nothing. -/
def silent (status : Int) : HandlerReply :=
  { regs := [], arena := [], abuf := none, pixels := [], status := status }

/-! ## Well-formedness (R81, R87): the check refuses an ill-formed term -/

theorem test_wf_tagReg_literal_refused : (Instr.mov 0 (.lit 0xFE)).wf Config.default = false := by
  decide
theorem test_wf_tagImm16_literal_refused :
    (Instr.stb (.reg 0) (.imm16 0) (.lit 0xFF)).wf Config.default = false := by decide
theorem test_wf_literal_accepted : (Instr.add 15 (.lit 0xFD) (.lit 0)).wf Config.default = true := by
  decide

/-! ## Decoding: every instruction's word, from R81, R83 and R85 -/

theorem test_decode_none : decode Config.default [0x00] = .ok (.nop, []) ∧
    decode Config.default [0x12] = .ok (.ret, []) := by decide

theorem test_decode_one_operand :
    decode Config.default [0x01, 0xFF, 0x00, 0x00] = .ok (.sys (.imm16 0), []) ∧
    decode Config.default [0x14, 0xFE, 0x0F] = .ok (.fre (.reg 15), []) ∧
    decode Config.default [0x18, 0xFF, 0x34, 0x12] = .ok (.cls (.imm16 0x1234), []) := by decide

theorem test_decode_jumps :
    decode Config.default [0x08, 0xFF, 0x0A, 0x00] = .ok (.jmp (.imm16 10), []) ∧
    decode Config.default [0x09, 0xFF, 0x15, 0x00] = .ok (.jeq (.imm16 21), []) ∧
    decode Config.default [0x0A, 0xFF, 0x00, 0x00] = .ok (.jne (.imm16 0), []) ∧
    decode Config.default [0x0B, 0xFF, 0x0C, 0x00] = .ok (.jlt (.imm16 12), []) ∧
    decode Config.default [0x0C, 0x0B] = .ok (.jgt (.lit 11), []) := by decide

theorem test_decode_branches :
    decode Config.default [0x0D, 0xFF, 0x05, 0x00] = .ok (.bra (.imm16 5), []) ∧
    decode Config.default [0x0E, 0xFE, 0x07] = .ok (.beq (.reg 7), []) ∧
    decode Config.default [0x0F, 0xFF, 0x05, 0x00] = .ok (.bne (.imm16 5), []) ∧
    decode Config.default [0x10, 0x05] = .ok (.blt (.lit 5), []) ∧
    decode Config.default [0x11, 0xFF, 0x32, 0x00] = .ok (.bgt (.imm16 50), []) := by decide

theorem test_decode_destination_and_one :
    decode Config.default [0x02, 0xFE, 0x00, 0xFF, 0x05, 0x00] = .ok (.mov 0 (.imm16 5), []) ∧
    decode Config.default [0x13, 0xFE, 0x00, 0xFF, 0x04, 0x00] = .ok (.alc 0 (.imm16 4), []) := by
  decide

theorem test_decode_destination_and_two :
    decode Config.default [0x03, 0xFE, 0x02, 0xFE, 0x00, 0xFE, 0x01] =
      .ok (.add 2 (.reg 0) (.reg 1), []) ∧
    decode Config.default [0x04, 0xFE, 0x00, 0x03, 0x05] = .ok (.sub 0 (.lit 3) (.lit 5), []) ∧
    decode Config.default [0x05, 0xFE, 0x00, 0xFF, 0xFF, 0xFF, 0xFF, 0xFE, 0xFF] =
      .ok (.mul 0 (.imm16 0xFFFF) (.imm16 0xFFFE), []) ∧
    decode Config.default [0x06, 0xFE, 0x01, 0xFE, 0x00, 0xFF, 0x00, 0x00] =
      .ok (.div 1 (.reg 0) (.imm16 0), []) ∧
    decode Config.default [0x16, 0xFE, 0x02, 0xFE, 0x01, 0x01] =
      .ok (.ldb 2 (.reg 1) (.lit 1), []) := by decide

theorem test_decode_two_and_three_operands :
    decode Config.default [0x07, 0xFF, 0x05, 0x00, 0x06] = .ok (.cmp (.imm16 5) (.lit 6), []) ∧
    decode Config.default [0x15, 0xFE, 0x01, 0x02, 0xC8] =
      .ok (.stb (.reg 1) (.lit 2) (.lit 200), []) ∧
    decode Config.default [0x17, 0x01, 0xFF, 0x02, 0x00, 0xFE, 0x09] =
      .ok (.pix (.lit 1) (.imm16 2) (.reg 9), []) := by decide

/-- R80: the longest instruction is ten bytes; what follows is left. -/
theorem test_decode_longest : decode Config.default
    [0x15, 0xFF, 0x01, 0x00, 0xFF, 0x02, 0x00, 0xFF, 0x03, 0x00, 0xAA] =
      .ok (.stb (.imm16 1) (.imm16 2) (.imm16 3), [0xAA]) := by decide

/-- V-DEC-4 to V-DEC-11. -/
theorem test_decode_rejects :
    decode Config.default [0x02, 0xFE, 0x00, 0xFE, 0x10] = .error .invalidRegister ∧
    decode Config.default [0x02, 0x03, 0x04] = .error .expectedRegister ∧
    decode Config.default [0x02, 0xFF, 0x00, 0x00, 0xFF, 0x05, 0x00] = .error .expectedRegister ∧
    decode Config.default [0x02, 0xFE, 0x00, 0xFF, 0x05] = .error .truncated ∧
    decode Config.default [0x02, 0xFE] = .error .truncated ∧
    decode Config.default [0x06, 0xFE, 0x01, 0xFE, 0x00, 0xFF, 0x00] = .error .truncated ∧
    decode Config.default [0x19] = .error .unknownOpcode ∧
    decode Config.default [0xFF] = .error .unknownOpcode := by decide

/-- R85: the opcode map and the tags are parameters. -/
theorem test_decode_other_parameters :
    decode { Config.default with opc := (Config.defaultOpc.set 2 0x16).set 22 0x02, tagReg := 0x00 }
      [0x16, 0x00, 0x03, 0xFE] = .ok (.mov 3 (.lit 0xFE), []) := by decide

theorem test_encode_worked : encode Config.default (.stb (.reg 0) (.imm16 0) (.lit 65)) =
    [0x15, 0xFE, 0x00, 0xFF, 0x00, 0x00, 0x41] := by decide

/-- A table word is laid out first byte lowest, zeros above. -/
theorem test_table_word : decodeTableWord 8 0x15 = some (.stb (.lit 0) (.lit 0) (.lit 0)) ∧
    decodeTableWord 32 0x0500FE02 = some (.mov 0 (.lit 5)) ∧ decodeTableWord 8 0x02 = none := by
  decide

theorem test_withFetchWord : (stepped (State.reset.withFetchWord 32 0x0500FE02)).reg 0 = 5 := by
  decide

/-! ## The loop -/

/-- V-DEC-13, 90_conflicts.md C5. -/
theorem test_empty_image : (stepped (machine [])).report = some (.returned 0) := by decide

theorem test_first_step_begins : stepped State.reset = { State.reset with rstate := .running } := by
  decide

/-- R122: the observer sees the state before the fetch, and nothing at a halt. -/
theorem test_observer : (machine [0x00]).observed = some (machine [0x00]) ∧
    (machine []).observed = none := by decide

/-- Scenario D, its second instruction. -/
theorem test_fault_report : (stepped { withRegs [0x02, 0xFE, 0x00, 0xFF, 0x01, 0x00, 0x06, 0xFE,
    0x01, 0xFE, 0x00, 0xFF, 0x00, 0x00] [(0, 1)] with pc := 6 }).report =
      some (.faulted "division by zero" 6) := by decide

/-- 60_exceptions.md R231. -/
theorem test_fault_codes : [FaultKind.unknownOpcode, .expectedRegister, .divisionByZero, .outOfMemory,
    .memoryNotAllocated, .noHandler, .callStackOverflow, .callStackUnderflow, .invalidRegister,
    .truncatedInstruction, .invalidFree, .badAllocSize, .pixelOutOfBounds].map FaultKind.code =
      [1, 2, 3, 4, 5, 6, 7, 8, 9, 10, 11, 12, 13] := by decide

/-- 10_state.md R27. -/
theorem test_flag_packing : (compareFlags 5 5).pack = 1 ∧ (compareFlags 1 2).pack = 2 ∧
    (compareFlags 2 1).pack = 4 := by decide

/-! ## NOP and SYS -/

/-- V-DEC-12. -/
theorem test_nop : stepped (machine [0x00]) = { machine [0x00] with pc := 1 } := by decide

/-- V-SYS-4. -/
theorem test_sys_noHandler :
    (stepped { machine [0x01, 0xFF, 0xFF, 0xFF] with handlers := [handler []] }).fault =
      some (.noHandler, 0) := by decide

/-- V-SYS-6: a halt request, `pc` after the instruction. -/
theorem test_sys_halt : (stepped { machine [0x01, 0x00] with
    handlers := [handler [{ silent 1 with regs := [(0, 42)] }]] }).report = some (.returned 42) := by
  decide

/-! ## ALU -/

/-- V-DEC-2. -/
theorem test_mov_literal : (stepped (machine [0x02, 0xFE, 0x00, 0xC8])).reg 0 = 0x00C8 := by decide
/-- V-DEC-14. -/
theorem test_mov_register : (stepped (withRegs [0x02, 0xFE, 0x00, 0xFE, 0x01] [(1, 7)])).reg 0 = 7 := by
  decide
/-- V-ALU-1. -/
theorem test_add_wraps :
    (stepped (machine [0x03, 0xFE, 0x00, 0xFF, 0xFF, 0x7F, 0x01])).reg 0 = 0x8000 := by decide
/-- V-ALU-16. -/
theorem test_add_same : (stepped (withRegs [0x03, 0xFE, 0x00, 0xFE, 0x00, 0xFE, 0x00] [(0, 9)])).reg 0
    = 18 := by decide
/-- V-ALU-3. -/
theorem test_sub_order : (stepped (machine [0x04, 0xFE, 0x00, 0x03, 0x05])).reg 0 = 0xFFFE := by decide
/-- V-ALU-4. -/
theorem test_sub_min :
    (stepped (machine [0x04, 0xFE, 0x00, 0xFF, 0x00, 0x80, 0x01])).reg 0 = 0x7FFF := by decide
/-- V-ALU-7. -/
theorem test_mul_low :
    (stepped (machine [0x05, 0xFE, 0x00, 0xFF, 0x2C, 0x01, 0xFF, 0x2C, 0x01])).reg 0 = 0x5F90 := by
  decide
/-- V-ALU-6. -/
theorem test_mul_signed :
    (stepped (machine [0x05, 0xFE, 0x00, 0xFF, 0x00, 0x80, 0xFF, 0xFF, 0xFF])).reg 0 = 0x8000 := by
  decide
/-- V-ALU-8 to V-ALU-13 and V-ALU-15. -/
theorem test_div_values : aluDiv Config.default (-7) 2 = -3 ∧ aluDiv Config.default 7 (-2) = -3 ∧
    aluDiv Config.default (-7) (-2) = 3 ∧ aluDiv Config.default 7 2 = 3 ∧
    aluDiv Config.default (-32768) (-1) = 0x8000 ∧ aluDiv Config.default 0 5 = 0 ∧
    aluDiv Config.default (-32768) 2 = 0xC000 := by decide
/-- V-ALU-14. -/
theorem test_div_zero : stepped (machine [0x06, 0xFE, 0x00, 0x05, 0x00]) =
    (machine [0x06, 0xFE, 0x00, 0x05, 0x00]).raise .divisionByZero 0 := by decide
/-- V-CMP-2. -/
theorem test_cmp_lt : (stepped (machine [0x07, 0xFF, 0xFF, 0xFF, 0x01])).flags =
    { eq := false, lt := true, gt := false } := by decide
/-- V-CMP-6: all three flags are rewritten. -/
theorem test_cmp_rewrites : (stepped { machine [0x07, 0x01, 0x02] with
    flags := { eq := false, lt := false, gt := true } }).flags =
      { eq := false, lt := true, gt := false } := by decide

/-! ## Control transfer -/

/-- V-CTL-2. -/
theorem test_jmp_past_image :
    (stepped (machine [0x08, 0xFF, 0x64, 0x00, 0x02, 0xFE, 0x00, 0x09])).pc = 100 := by decide
/-- V-CTL-6. -/
theorem test_jeq_not_taken : (stepped (machine [0x09, 0xFF, 0x04, 0x00])).pc = 4 := by decide
/-- Scenario C, its second instruction. -/
theorem test_jeq_taken : (stepped { machine [0x09, 0xFF, 0x15, 0x00] with
    flags := { eq := true, lt := false, gt := false } }).pc = 21 := by decide
/-- V-CTL-3. -/
theorem test_jne_not_taken : (stepped { machine [0x0A, 0xFF, 0x00, 0x00] with
    flags := { eq := true, lt := false, gt := false } }).pc = 4 := by decide
/-- V-CTL-4. -/
theorem test_jlt_taken : (stepped { machine [0x0B, 0xFF, 0x0B, 0x00] with
    flags := { eq := false, lt := true, gt := false } }).pc = 11 := by decide
/-- V-CTL-5. -/
theorem test_jgt_not_taken : (stepped { machine [0x0C, 0xFF, 0x0B, 0x00] with
    flags := { eq := false, lt := true, gt := false } }).pc = 4 := by decide
/-- R184. -/
theorem test_jgt_taken : (stepped { machine [0x0C, 0xFF, 0x0B, 0x00] with
    flags := { eq := false, lt := false, gt := true } }).pc = 11 := by decide
/-- V-CTL-7, step 1. -/
theorem test_bra_links : (stepped (machine [0x0D, 0xFF, 0x05, 0x00, 0x00, 0x12])).cs = [4] ∧
    (stepped (machine [0x0D, 0xFF, 0x05, 0x00, 0x00, 0x12])).pc = 5 := by decide
/-- V-CTL-9, step 257. -/
theorem test_bra_overflow : (stepped { machine [0x0D, 0xFF, 0x00, 0x00] with
    cs := List.replicate 256 4 }).fault = some (.callStackOverflow, 0) := by decide +kernel
/-- R187. -/
theorem test_beq_links : (stepped { machine [0x0E, 0xFE, 0x07] with
    flags := { eq := true, lt := false, gt := false } }).cs = [3] := by decide
/-- V-CTL-11. -/
theorem test_bne_links : (stepped (machine [0x0F, 0xFF, 0x05, 0x00, 0x00, 0x12])).cs = [4] := by decide
/-- R189. -/
theorem test_blt_links : (stepped { machine [0x10, 0x05] with
    flags := { eq := false, lt := true, gt := false } }).cs = [2] := by decide
/-- V-CTL-10: not taken, nothing pushed; taken by GT. -/
theorem test_bgt : (stepped { machine [0x11, 0xFF, 0x32, 0x00] with
    flags := { eq := true, lt := false, gt := false } }).cs = [] ∧
    (stepped { machine [0x11, 0xFF, 0x32, 0x00] with
      flags := { eq := false, lt := false, gt := true } }).pc = 50 := by decide
/-- V-CTL-7, step 2: the last entry pushed is the one popped. -/
theorem test_ret_pops : (stepped { machine [0x12] with cs := [9, 4] }).pc = 4 ∧
    (stepped { machine [0x12] with cs := [9, 4] }).cs = [9] := by decide
/-- V-CTL-8. -/
theorem test_ret_underflow : (stepped (machine [0x12])).fault = some (.callStackUnderflow, 0) := by
  decide

/-! ## Allocator and arena -/

/-- V-MEM-13, the last ALC: the hole of one byte is skipped. -/
theorem test_alc_first_fit : let s : State := { machine [0x13, 0xFE, 0x03, 0x02] with
      amap := 0b111011, stab := [(0, 2), (3, 3)] }
    (stepped s).reg 3 = 6 ∧ (stepped s).stab = [(0, 2), (3, 3), (6, 2)] ∧
      (stepped s).amap = 0b11111011 := by decide
/-- V-MEM-1 and V-MEM-2. -/
theorem test_alc_faults :
    (stepped (machine [0x13, 0xFE, 0x00, 0x00])).fault = some (.badAllocSize, 0) ∧
    (stepped (machine [0x13, 0xFE, 0x00, 0xFF, 0xFF, 0xFF])).fault = some (.outOfMemory, 0) := by decide
/-- P2, the FRE: freed bytes keep their contents (R35). -/
theorem test_fre : (stepped (oneBlock [0x14, 0xFE, 0x00])) =
    { oneBlock [0x14, 0xFE, 0x00] with pc := 3, amap := 0, stab := [] } := by decide
/-- V-MEM-3: a pointer inside a block. -/
theorem test_fre_inside : (stepped (oneBlock [0x14, 0x01])).fault = some (.invalidFree, 0) := by decide
/-- V-MEM-6: the address wraps. V-MEM-10: the value is truncated. -/
theorem test_stb_wraps : (stepped (oneBlock [0x15, 0x04, 0xFF, 0xFF, 0xFF, 0xFF, 0x34, 0x12])).arena =
    [(0, 65), (3, 0x34)] := by decide
/-- V-MEM-11. -/
theorem test_stb_unallocated : (stepped (machine [0x15, 0x00, 0x00, 0x00])).fault =
    some (.memoryNotAllocated, 0) := by decide
/-- V-MEM-14, the LDB, with a byte above 127. -/
theorem test_ldb_zero_extends : (stepped { oneBlock [0x16, 0xFE, 0x02, 0x00, 0x00] with
    arena := [(0, 200)] }).reg 2 = 200 := by decide
/-- V-MEM-9: a draw, counted; the value is free. -/
theorem test_ldb_never_written : (stepped (oneBlock [0x16, 0xFE, 0x01, 0x01, 0x00])).draws = 1 ∧
    (stepped (oneBlock [0x16, 0xFE, 0x01, 0x01, 0x00])).rstate = .running := by decide

/-! ## Display -/

/-- V-PIX-1. -/
theorem test_pix_index : (stepped (machine [0x17, 0x01, 0x02, 0x09])).pbuf = #v[[(9, 9)], []] := by
  decide
/-- V-PIX-3, V-PIX-4 and V-PIX-5. -/
theorem test_pix_outside : [[0x17, 0x04, 0x00, 0x00], [0x17, 0xFF, 0xFF, 0xFF, 0x00, 0x00],
    [0x17, 0x00, 0x03, 0x00]].map (fun g => (stepped (machine g)).fault) =
      List.replicate 3 (some (.pixelOutOfBounds, 0)) := by decide
/-- V-PIX-8 and V-PIX-9. -/
theorem test_cls_active : (stepped { machine [0x18, 0xFF, 0x34, 0x12] with abuf := 1 }).pbuf =
    #v[[], (List.range 12).map fun i => (i, 0x34)] := by decide

/-! ## The assembler -/

/-- The default parameters with `ASM_STRICT` false. -/
def relaxed : Config := { Config.default with asmStrict := false }

/-- Scenario F: a forward reference, R107 and R110. -/
theorem test_asm_forward : assemble Config.default
    "jmp loop\nmov @0 #9\nloop:\nsys #0\n".toList = .ok [0x08, 0xFF, 0x0A, 0x00,
      0x02, 0xFE, 0x00, 0xFF, 0x09, 0x00, 0x01, 0xFF, 0x00, 0x00] := by decide
/-- 95_test_vectors.md 1.7, the round trip: both references are 4. -/
theorem test_asm_both_ways : assemble Config.default "jmp l\nL:\nNOP\njeq l".toList =
    .ok [0x08, 0xFF, 0x04, 0x00, 0x00, 0x09, 0xFF, 0x04, 0x00] := by decide
/-- R105: a `$` byte that equals a tag takes the immediate-short form. R108: the terminator. -/
theorem test_asm_tag_byte : assemble Config.default "mov @1 $254 / junk".toList =
    .ok [0x02, 0xFE, 0x01, 0xFF, 0xFE, 0x00] := by decide
/-- R104 and R109: strict mode rejects, the other mode narrows or drops. -/
theorem test_asm_strict :
    assemble Config.default "#65536".toList = .error (.valueOutOfRange "#65536".toList) ∧
    assemble relaxed "#65536 bogus".toList = .ok [0xFF, 0x00, 0x00] := by decide

/-- R101, R102: the whole line decides, so `foo:` before a `/` on its line is no label line. -/
theorem test_asm_label_line :
    assemble Config.default "foo: / x".toList = .error (.unrecognised "foo:".toList) ∧
    assemble relaxed "jmp foo\nfoo: / x".toList = .ok [0x08] := by decide
/-- R101, D29 (d): a name defined twice is an error in strict mode alone. -/
theorem test_asm_duplicate :
    assemble Config.default "l:\nnop\nl:".toList = .error (.duplicateLabel "l".toList) ∧
    assemble relaxed "l:\nnop\nl:\njmp l".toList = .ok [0x00, 0x08, 0xFF, 0x00, 0x00] := by decide
/-- R107, D29 (d): a value past 65535 is an error in strict mode and wraps in the other. -/
theorem test_asm_label_too_big :
    whenStrict true (checkValues [(['l'], 65535), (['m'], 65536)]) = .error (.labelTooBig ['m']) ∧
    whenStrict false (checkValues [(['m'], 65537)]) = .ok () ∧
    emit Config.default [(['m'], 65537)] [.ref ['m']] = .ok [0xFF, 0x01, 0x00] := by decide

/-! ## Witnesses: the hypotheses of each statement, met by concrete values, at the ends of ranges -/

theorem witness_decodeOfEncode : Config.default.Valid ∧
    (Instr.stb (.reg 15) (.imm16 0xFFFF) (.lit 0xFD)).wf Config.default = true := by decide

theorem witness_decodedBytes :
    decode Config.default [0x18, 0xFF, 0xFF, 0xFF, 0x07] = .ok (.cls (.imm16 0xFFFF), [0x07]) := by
  decide

theorem witness_illegalOpcode : (machine [0x19]).rstate = .running ∧
    (machine [0x19]).img.drop (machine [0x19]).pc = 0x19 :: [] ∧
    (∀ m, (machine [0x19]).cfg.opcode m ≠ 0x19) ∧ ∀ m, (machine [0xFF]).cfg.opcode m ≠ 0xFF :=
  ⟨rfl, rfl, fun m => by cases m <;> decide, fun m => by cases m <;> decide⟩

theorem witness_destination : Config.default.Valid ∧
    Mnemonic.ldb ∈ [Mnemonic.mov, .add, .sub, .mul, .div, .alc, .ldb] ∧
    (0xFF : Byte) ≠ Config.default.tagReg ∧ 16 ≤ (0x10 : Byte).toNat ∧ 16 ≤ (0xFF : Byte).toNat := by
  decide

theorem witness_operandForms : Config.default.Valid ∧ (0x0F : Byte).toNat = (15 : RegIdx).val ∧
    16 ≤ (0x10 : Byte).toNat ∧ (0xFD : Byte) ≠ Config.default.tagReg ∧
    (0xFD : Byte) ≠ Config.default.tagImm16 := by decide

theorem witness_truncated : Config.default.Valid ∧
    (Instr.pix (.imm16 1) (.imm16 2) (.imm16 3)).wf Config.default = true ∧
    9 < (encode Config.default (.pix (.imm16 1) (.imm16 2) (.imm16 3))).length ∧
    1 < (encode Config.default (.pix (.imm16 1) (.imm16 2) (.imm16 3))).length := by decide

theorem witness_stepDecoded : (machine [0x14, 0x01]).rstate = .running ∧
    decode (machine [0x14, 0x01]).cfg ((machine [0x14, 0x01]).img.drop (machine [0x14, 0x01]).pc) =
      .ok (.fre (.lit 1), []) := by decide

theorem witness_stepEncoded : (machine [0x14, 0x01, 0x00]).cfg.Valid ∧
    (Instr.fre (.lit 1)).wf (machine [0x14, 0x01, 0x00]).cfg = true ∧
    (machine [0x14, 0x01, 0x00]).img.drop (machine [0x14, 0x01, 0x00]).pc =
      encode (machine [0x14, 0x01, 0x00]).cfg (.fre (.lit 1)) ++ [0x00] := by decide

theorem witness_pastImage : (machine []).rstate = .running ∧ (machine []).img.length ≤ (machine []).pc ∧
    (machine [0x00]).img.length ≤ ({ machine [0x00] with pc := 65535 } : State).pc := by decide

theorem witness_runStates : step State.reset = .next State.reset.beginRun ∧
    step (machine []) = .next (machine []).halt ∧ (machine [0x00]).rstate = .running :=
  ⟨rfl, rfl, rfl⟩

theorem witness_faultingStep :
    step (machine [0x12]) = .next ((machine [0x12]).raise .callStackUnderflow 0) ∧
    exec .ret (machine [0x12]) = .next ((machine [0x12]).raise .callStackUnderflow 0) ∧
    ((machine [0x12]).raise .callStackUnderflow 0).rstate = .faulted := ⟨rfl, rfl, rfl⟩

theorem witness_decoderFault : (machine [0x02]).pc < (machine [0x02]).img.length ∧
    decode Config.default [0x02] = .error .truncated ∧
    decode Config.default [0x19] = .error .unknownOpcode ∧
    decode Config.default [0x02, 0x00] = .error .expectedRegister ∧
    decode Config.default [0x02, 0xFE, 0x10] = .error .invalidRegister := by decide

theorem witness_selfJump : decode (machine [0x08, 0x00]).cfg
      ((machine [0x08, 0x00]).img.drop (machine [0x08, 0x00]).pc) = .ok (.jmp (.lit 0), []) ∧
    uint ((machine [0x08, 0x00]).value (.lit 0)) = (machine [0x08, 0x00]).pc := by decide

/-- A machine about to call handler 0, which answers as given. -/
def calling (a : HandlerAnswer) : State :=
  { machine [0x01, 0x00] with handlers := [{ answers := [a] }] }

theorem witness_sysWithoutHandler : (calling .never).handlers.length ≤
    uint ((calling .never).value (.lit 1)) := by decide

theorem witness_sysApplies (status : Int) :
    (calling (.returns (silent status))).handlers[uint
      ((calling (.returns (silent status))).value (.lit 0))]? =
        some { answers := [.returns (silent status)] } ∧
    ((calling (.returns (silent status))).past (.sys (.lit 0))).handlerAnswer
      (uint ((calling (.returns (silent status))).value (.lit 0)))
      { answers := [.returns (silent status)] } = .returns (silent status) := ⟨rfl, rfl⟩

theorem witness_handlerWrites : uint ((calling .never).value (.lit 0)) <
    (calling .never).handlers.length ∧
    exec (.sys (.lit 0)) (calling .never) = .next (calling .never) := ⟨by decide, rfl⟩

theorem witness_handlerHangs : decode (calling .never).cfg
      ((calling .never).img.drop (calling .never).pc) = .ok (.sys (.lit 0), []) ∧
    (calling .never).handlers[uint ((calling .never).value (.lit 0))]? =
      some { answers := [.never] } ∧
    ((calling .never).past (.sys (.lit 0))).handlerAnswer
      (uint ((calling .never).value (.lit 0))) { answers := [.never] } = .never := by decide

theorem witness_registerHandler : State.reset.rstate = .ready ∧
    ({ State.reset with handlers := List.replicate 255 (handler []) } : State).handlers.length < 256 ∧
    256 ≤ ({ State.reset with handlers := List.replicate 256 (handler []) } : State).handlers.length :=
  ⟨rfl, by decide +kernel, by decide +kernel⟩

theorem witness_div : uint ((machine []).value (.lit 0)) = 0 ∧
    uint ((machine []).value (.imm16 0xFFFF)) ≠ 0 ∧
    sint ((machine []).value (.imm16 0x8000)) = -32768 ∧
    sint ((machine []).value (.imm16 0xFFFF)) = -1 ∧
    ¬(sint ((machine []).value (.imm16 0x8001)) = -32768 ∧
      sint ((machine []).value (.imm16 0xFFFF)) = -1) := by decide

theorem witness_onlyCmp :
    (∃ t, exec .nop (machine []) = .next t ∧ ∀ a b, Instr.nop ≠ .cmp a b) ∧
    ∃ t, exec (.cmp (.lit 0) (.lit 0)) (machine []) = .next t :=
  ⟨⟨_, rfl, fun _ _ h => nomatch h⟩, _, rfl⟩

/-- The two cases of each condition: at reset flags EQ, LT and GT are 0, after CMP one is 1. -/
theorem witness_conditions : (machine []).flags = { eq := false, lt := false, gt := false } ∧
    (compareFlags 0 0).eq = true ∧ (compareFlags 0 1).lt = true ∧ (compareFlags 1 0).gt = true := by
  decide

theorem witness_callDepth :
    ({ machine [] with cs := List.replicate 255 4 } : State).cs.length < 256 ∧
    ({ machine [] with cs := List.replicate 256 4 } : State).cs.length = 256 :=
  ⟨by decide +kernel, by decide +kernel⟩

theorem witness_ret : ({ machine [] with cs := [9, 4] } : State).cs = [9] ++ [4] ∧
    (machine []).cs = [] := by decide

theorem witness_returnResumes : ∃ t, exec (.bra (.lit 5)) (machine [0x0D, 0x05]) = .next t ∧
    t.cs ≠ (machine [0x0D, 0x05]).cs := ⟨_, rfl, by decide⟩

theorem witness_freeRun : FreeRun (machine []) 0 16000 ∧
    uint ((machine []).value (.imm16 16000)) ≠ 0 ∧ (machine []).cfg.Valid :=
  ⟨⟨by decide, fun a _ _ => Nat.zero_testBit a⟩, by decide, by decide⟩

theorem witness_noFreeRun : uint ((machine []).value (.imm16 16001)) ≠ 0 ∧
    ¬ ∃ p, FreeRun (machine []) p (uint ((machine []).value (.imm16 16001))) := by
  refine ⟨by decide, ?_⟩
  rintro ⟨p, h, -⟩
  have h1 : uint ((machine []).value (.imm16 16001)) = 16001 := by decide
  have h2 : (machine []).cfg.arenaSize = 16000 := rfl
  omega

/-- One live block of 4 bytes meets the allocator's invariants. -/
theorem allocInv_oneBlock (img : List Byte) : AllocInv (oneBlock img) := by
  have key : ∀ p n, keyGet (oneBlock img).stab p = some n → p = 0 ∧ n = 4 := by
    intro p n h
    simp only [oneBlock, keyGet] at h
    split at h
    · rename_i e
      cases h
      exact ⟨e.symm, rfl⟩
    · cases h
  refine ⟨fun a => ?_, fun p n q m h h' hne => ?_, fun p n h => ?_, rfl⟩
  · have hb : (oneBlock img).amap.testBit a = (decide (0 ≤ a) && decide (a < 0 + 4)) :=
      testBit_runMask 0 4 a
    rw [hb]
    constructor
    · intro h
      exact ⟨0, 4, rfl, by simpa using h⟩
    · rintro ⟨p, n, h, h'⟩
      obtain ⟨rfl, rfl⟩ := key p n h
      simpa using h'
  · obtain ⟨rfl, -⟩ := key p n h
    obtain ⟨rfl, -⟩ := key q m h'
    exact absurd rfl hne
  · obtain ⟨rfl, rfl⟩ := key p n h
    exact ⟨by decide, by show 4 ≤ 16000; decide⟩

theorem witness_fre : AllocInv (oneBlock [0x14, 0x00]) ∧ (oneBlock [0x14, 0x00]).cfg.Valid ∧
    keyGet (oneBlock [0x14, 0x00]).stab (uint ((oneBlock [0x14, 0x00]).value (.lit 0))) = some 4 ∧
    keyGet (oneBlock [0x14, 0x00]).stab (uint ((oneBlock [0x14, 0x00]).value (.lit 1))) = none :=
  ⟨allocInv_oneBlock _, by decide, by decide, by decide⟩

theorem witness_freedAgain : ∃ t, exec (.fre (.lit 0)) (oneBlock [0x14, 0x00]) = .next t ∧
    uint (t.value (.lit 4)) = 4 := ⟨_, rfl, by decide⟩

theorem witness_allocateFree : ∃ t, exec (.alc 3 (.lit 2)) (oneBlock []) = .next t ∧
    t.rstate ≠ .faulted ∧ (oneBlock []).rstate ≠ .faulted := ⟨_, rfl, by decide, by decide⟩

theorem witness_effectiveAddress : (uint (1 : Word) : Int) + sint (0xFFFF : Word) = 0 ∧
    (uint (32768 : Word) : Int) + sint (32767 : Word) = 65535 := by decide

theorem witness_allocated :
    (oneBlock []).allocated (effectiveAddress ((oneBlock []).value (.lit 4))
      ((oneBlock []).value (.imm16 0xFFFF))) = true ∧
    (oneBlock []).allocated (effectiveAddress ((oneBlock []).value (.lit 4))
      ((oneBlock []).value (.lit 0))) = false := by decide

theorem witness_ldb :
    (oneBlock []).allocated (effectiveAddress ((oneBlock []).value (.lit 0))
      ((oneBlock []).value (.lit 0))) = true ∧
    (oneBlock []).arenaByte (effectiveAddress ((oneBlock []).value (.lit 0))
      ((oneBlock []).value (.lit 0))) = some 65 ∧
    (oneBlock []).allocated (effectiveAddress ((oneBlock []).value (.lit 0))
      ((oneBlock []).value (.lit 3))) = true ∧
    (oneBlock []).arenaByte (effectiveAddress ((oneBlock []).value (.lit 0))
      ((oneBlock []).value (.lit 3))) = none := by decide

theorem witness_pixInside : (machine []).cfg.Valid ∧ 0 ≤ sint ((machine []).value (.lit 0)) ∧
    sint ((machine []).value (.lit 3)) < (machine []).cfg.displayW ∧
    sint ((machine []).value (.lit 2)) < (machine []).cfg.displayH := by decide

theorem witness_pixOutside : sint ((machine []).value (.imm16 0xFFFF)) < 0 ∧
    (machine []).cfg.displayW ≤ sint ((machine []).value (.lit 4)) ∧
    (machine []).cfg.displayH ≤ sint ((machine []).value (.lit 3)) := by decide

theorem witness_writeOnly : (Instr.pix (.lit 0) (.lit 0) (.lit 1)).mnemonic ≠ .sys ∧
    ∃ t, exec (.pix (.lit 0) (.lit 0) (.lit 1)) (machine []) = .next t := ⟨by decide, _, rfl⟩

theorem witness_load : State.reset.rstate = .ready ∧
    ([0x00] : List Byte).length < 2 ^ State.reset.cfg.ipBits ∧ (machine []).rstate ≠ .ready := by
  decide

/-- A state with a live block and a written byte meets the invariant, before and during a run. -/
theorem inv_oneBlock (r : RunState) (hr : r = .ready ∨ r = .running) :
    ({ oneBlock [0x00] with rstate := r } : State).Inv where
  cfgValid := by show Config.default.Valid; decide
  imageFits := by show 1 < 2 ^ 32; decide
  pcFits := by show 0 < 2 ^ 32; decide
  stackDepth := Nat.zero_le _
  stackInImage := fun v hv => absurd hv List.not_mem_nil
  tableSize := Nat.zero_le _
  flagsOk := by show Flags.atMostOne { eq := false, lt := false, gt := false }; simp [Flags.atMostOne]
  alloc := allocInv_congr (s := oneBlock [0x00]) rfl rfl rfl (allocInv_oneBlock _)
  arenaWf := rfl
  arenaBelow := rfl
  pixelsWf := reset_pbuf_wf
  pixelsBelow := by
    show ∀ n : Fin 2, Memory.below 12 (Vector.replicate 2 ([] : Memory))[n.val] = true
    decide
  faultRecord := by
    rcases hr with rfl | rfl <;> exact ⟨fun h => (nomatch h), fun h => (nomatch h)⟩
  readyStackEmpty := fun _ => rfl

theorem witness_stepKeepsInv : (oneBlock [0x00]).Inv ∧
    ∃ t, step (oneBlock [0x00]) = .next t := ⟨inv_oneBlock _ (.inr rfl), _, rfl⟩

theorem witness_hostCalls : ∃ s : State, s.Inv ∧ (∃ t, s.registerHandler (handler []) = .next t) ∧
    (∃ t, s.load [0x00] = .next t) ∧ ∃ t, s.run = .next t :=
  ⟨_, inv_oneBlock _ (.inl rfl), ⟨_, rfl⟩, ⟨_, rfl⟩, _, rfl⟩

theorem witness_asmValues : Config.default.Valid ∧ decimalValue "-32768".toList = some (-32768) ∧
    decimalValue "65535".toList = some 65535 ∧ decimalValue "254".toList = some 254 ∧
    decimalValue "0".toList = some 0 ∧ decimalValue "15".toList = some 15 ∧
    ["l".toList, "nop".toList].contains (foldCase "#-32768".toList) = false ∧
    ["l".toList, "nop".toList].contains (foldCase "$254".toList) = false ∧
    ["l".toList, "nop".toList].contains (foldCase "@15".toList) = false := by decide

theorem witness_label : emit Config.default [(['l'], 4)] [.ref ['l'], .bytes [0x00]] =
    .ok [0xFF, 0x04, 0x00, 0x00] := by decide

end Sys2Proof.Tests
end

/-! SUPPORT. What ALC and FRE do to the allocator's invariants (10_state.md R34): a run the allocator
takes is clear of every live block, so marking and recording it, or unmarking and removing a live one,
keeps the map, the table and the arena in step. -/

namespace Sys2Proof.Machine

/-! ## The allocator's operations and its invariants -/

/-- A run of free bytes overlaps no live block: a common byte would be both free and marked. -/
theorem freeRun_disjoint {s : State} {p n q m : Nat} (h : AllocInv s) (hfree : FreeRun s p n)
    (hn : n ≠ 0) (hq : keyGet s.stab q = some m) : p + n ≤ q ∨ q + m ≤ p := by
  have hm := (h.inside q m hq).1
  by_contra hover
  have hmarked : s.amap.testBit (max p q) = true :=
    (h.marked _).2 ⟨q, m, hq, by omega, by omega⟩
  have hclear := hfree.2 (max p q) (by omega) (by omega)
  simp [hclear] at hmarked

/-- No live block starts where a run of free bytes starts. -/
theorem keyGet_freeRun {s : State} {p n : Nat} (h : AllocInv s) (hfree : FreeRun s p n)
    (hn : n ≠ 0) : keyGet s.stab p = none := by
  rw [Option.eq_none_iff_forall_ne_some]
  intro m hp
  have hm := (h.inside p m hp).1
  have := freeRun_disjoint h hfree hn hp
  omega

/-- What a table holds once key `k` is written: the new entry there, the old ones elsewhere. -/
theorem keyGet_keySet_eq_some {β : Type} {l : List (Nat × β)} {k k' : Nat} {v w : β} :
    keyGet (keySet l k v) k' = some w ↔ k' = k ∧ v = w ∨ k' ≠ k ∧ keyGet l k' = some w := by
  rw [keyGet_keySet]
  by_cases hk : k' = k <;> simp [hk]

/-- What a canonical table holds once key `k` is removed: the old entries elsewhere. -/
theorem keyGet_keyErase_eq_some {β : Type} {l : List (Nat × β)} {k k' : Nat} {w : β}
    (hl : keysFrom 0 l = true) :
    keyGet (keyErase l k) k' = some w ↔ k' ≠ k ∧ keyGet l k' = some w := by
  rw [keyGet_keyErase hl]
  by_cases hk : k' = k <;> simp [hk]

/-- `allocate(n)` (R60) keeps the invariants of R34. -/
theorem allocInv_allocate {s t : State} {n p : Nat} (h : AllocInv s) (hn : n ≠ 0)
    (halloc : s.allocate n = some (p, t)) : AllocInv t := by
  obtain ⟨hfit, rfl⟩ := allocate_eq_some.1 halloc
  obtain ⟨hfree, -⟩ := firstFit_freeRun hfit
  refine ⟨fun a => ?marked, fun q m q' m' hq hq' hne => ?disjoint, fun q m hq => ?inside,
    keysFrom_keySet h.sorted (Nat.zero_le p)⟩
  case marked =>
    simp only [testBit_markRun, keyGet_keySet_eq_some, Bool.or_eq_true, Bool.and_eq_true,
      decide_eq_true_eq, h.marked]
    constructor
    · rintro (⟨q, m, hq, hcover⟩ | hnew)
      · have hne : q ≠ p := by
          rintro rfl
          simp [keyGet_freeRun h hfree hn] at hq
        exact ⟨q, m, .inr ⟨hne, hq⟩, hcover⟩
      · exact ⟨p, n, .inl ⟨rfl, rfl⟩, hnew⟩
    · rintro ⟨q, m, ⟨rfl, rfl⟩ | ⟨-, hq⟩, hcover⟩
      · exact .inr hcover
      · exact .inl ⟨q, m, hq, hcover⟩
  case disjoint =>
    rw [keyGet_keySet_eq_some] at hq hq'
    obtain ⟨rfl, rfl⟩ | ⟨-, hq⟩ := hq <;> obtain ⟨rfl, rfl⟩ | ⟨-, hq'⟩ := hq'
    · exact absurd rfl hne
    · exact freeRun_disjoint h hfree hn hq'
    · exact (freeRun_disjoint h hfree hn hq).symm
    · exact h.disjoint q m q' m' hq hq' hne
  case inside =>
    obtain ⟨rfl, rfl⟩ | ⟨-, hq⟩ := keyGet_keySet_eq_some.1 hq
    · exact ⟨Nat.pos_of_ne_zero hn, hfree.1⟩
    · exact h.inside q m hq

/-- `free(p)` (R61) keeps the invariants of R34. -/
theorem allocInv_free {s t : State} {p : Nat} (h : AllocInv s) (hfree : s.free p = some t) :
    AllocInv t := by
  obtain ⟨n, hp, rfl⟩ := free_eq_some.1 hfree
  have hent {q m : Nat} := keyGet_keyErase_eq_some (k := p) (k' := q) (w := m) h.sorted
  refine ⟨fun a => ?marked,
    fun q m q' m' hq hq' => h.disjoint q m q' m' (hent.1 hq).2 (hent.1 hq').2,
    fun q m hq => h.inside q m (hent.1 hq).2, keysFrom_keyErase h.sorted⟩
  simp only [testBit_clearRun, hent, Bool.and_eq_true, Bool.not_eq_true', Bool.and_eq_false_iff,
    decide_eq_false_iff_not, h.marked]
  constructor
  · rintro ⟨⟨q, m, hq, hcover⟩, hout⟩
    have hne : q ≠ p := by
      rintro rfl
      have hsize : n = m := Option.some.inj (hp.symm.trans hq)
      omega
    exact ⟨q, m, ⟨hne, hq⟩, hcover⟩
  · rintro ⟨q, m, ⟨hne, hq⟩, hcover⟩
    have := h.disjoint q m p n hq hp hne
    exact ⟨⟨q, m, hq, hcover⟩, by omega⟩

/-! ## ALC and FRE -/

@[simp] theorem allocInv_raise {s : State} {k : FaultKind} {a : Nat} :
    AllocInv (s.raise k a) ↔ AllocInv s :=
  ⟨allocInv_congr (t := s) rfl rfl rfl, allocInv_congr (s := s) rfl rfl rfl⟩

@[simp] theorem allocInv_setReg {s : State} {d : RegIdx} {v : Word} :
    AllocInv (s.setReg d v) ↔ AllocInv s :=
  ⟨allocInv_congr (t := s) rfl rfl rfl, allocInv_congr (s := s) rfl rfl rfl⟩

@[simp] theorem allocInv_past {s : State} {i : Instr} : AllocInv (s.past i) ↔ AllocInv s :=
  ⟨allocInv_congr (t := s) rfl rfl rfl, allocInv_congr (s := s) rfl rfl rfl⟩

/-- R200 ALC keeps the invariants of R34, whether it faults or allocates. -/
theorem allocInv_execAlc {s t : State} {d : RegIdx} {n : Operand} (h : AllocInv s)
    (hexec : execAlc d n s = .next t) : AllocInv t := by
  obtain ⟨k, rfl⟩ | ⟨hn, p, hfit, rfl⟩ := execAlc_cases hexec
  · exact allocInv_raise.2 h
  · rw [allocInv_past, allocInv_setReg]
    exact allocInv_allocate h hn (allocate_eq_some.2 ⟨hfit, rfl⟩)

/-- R202 FRE keeps the invariants of R34, whether it faults or releases. -/
theorem allocInv_execFre {s t : State} {p : Operand} (h : AllocInv s)
    (hexec : execFre p s = .next t) : AllocInv t := by
  obtain ⟨k, rfl⟩ | ⟨n, hlive, rfl⟩ := execFre_cases hexec
  · exact allocInv_raise.2 h
  · rw [allocInv_past]
    exact allocInv_free h (free_eq_some.2 ⟨n, hlive, rfl⟩)

/-- Settles O41: ALC and FRE either fault, with the allocator as it was, or are one `allocate` or one
`free`. -/
theorem allocatorKeepsItsInvariants : Obligations.AllocatorKeepsItsInvariants :=
  fun _ _ h => ⟨fun _ _ hexec => allocInv_execAlc h hexec, fun _ hexec => allocInv_execFre h hexec⟩

end Sys2Proof.Machine

/-! SUPPORT. The execution loop at the end of the image (40_execution_loop.md R121): the halt check comes
before the fetch, the clean halt touches the run state only, and its report is register 0. -/

namespace Sys2Proof.Machine

/-! ## The clean halt -/

/-- The clean halt writes no part of the state but the run state. -/
theorem halt_frame (s : State) : UnchangedExcept [.run] s s.halt := by
  constructor
  case arena => exact fun _ _ => rfl
  case pixels => exact fun _ _ _ => rfl
  all_goals simp

/-- R124: what `run()` returns on a clean halt. -/
@[simp] theorem report_halt (s : State) : s.halt.report = some (.returned (s.reg 0)) := rfl

/-! ## The halt check -/

/-- R121: with `pc` at or past `L` a running block halts, whatever the bytes of the image are. -/
theorem step_of_length_le_pc {s : State} (hrun : s.rstate = .running)
    (hend : s.img.length ≤ s.pc) : step s = .next s.halt := by
  obtain ⟨-, hhalt⟩ | ⟨hlt, -⟩ | ⟨hlt, -⟩ := step_running_cases hrun
  · exact hhalt
  all_goals exact absurd hlt (Nat.not_lt.2 hend)

/-- Settles O12: the next state is the clean halt, whose frame and report are known. -/
theorem pastImageHalts : Obligations.PastImageHalts := fun s hrun hend =>
  ⟨s.halt, step_of_length_le_pc hrun hend, halt_rstate s, halt_fault s, report_halt s, halt_frame s⟩

end Sys2Proof.Machine

/-! SUPPORT. NOP (41_system.md R140): its encoding is the opcode byte, and its one effect is the move past
itself, which every instruction that completes in sequence ends with. -/

namespace Sys2Proof.Machine

/-! ## Moving past an instruction -/

/-- Moving past an instruction writes no part of the state but `pc`. -/
theorem past_frame (s : State) (i : Instr) : UnchangedExcept [.pc] s (s.past i) := by
  constructor
  case arena => exact fun _ _ => rfl
  case pixels => exact fun _ _ _ => rfl
  all_goals simp

/-! ## NOP -/

/-- R83: NOP has no operands, so no byte follows its opcode. -/
theorem layout_nop : Layout .nop .nop (fun _ => []) := ⟨rfl, fun _ => rfl⟩

/-- R140: NOP moves past itself and does nothing else. -/
theorem exec_nop (s : State) : exec .nop s = .next (s.past .nop) := rfl

/-- The next instruction in sequence after NOP is one byte on. -/
theorem past_nop_pc (s : State) : (s.past .nop).pc = s.pc + 1 := by
  rw [past_pc]
  rfl

/-- Settles O19: the next state is `s` moved past NOP, whose frame is that of every such move. -/
theorem nopOnlyAdvances : Obligations.NopOnlyAdvances := fun s =>
  ⟨layout_nop, s.past .nop, exec_nop s, past_nop_pc s, past_frame s .nop⟩

end Sys2Proof.Machine

/-! SUPPORT. The instructions of 42_alu.md that always complete: the bytes of an instruction with two
operands or with a destination, the frame of one update followed by the move past the instruction, and
the value of a wrapped result. -/

namespace Sys2Proof.Machine

/-! ## Layouts -/

/-- R83: without a destination, two sources follow the opcode in order. -/
theorem layout_two_sources {i : Instr} {a b : Operand} (hdest : i.dest? = none)
    (hsources : i.sources = [a, b]) : Layout i i.mnemonic (fun c => a.bytes c ++ b.bytes c) :=
  ⟨rfl, fun c => by simp [encode, hdest, hsources]⟩

/-- R83: the destination follows the opcode, and one source follows it. -/
theorem layout_dest_one_source {i : Instr} {d : RegIdx} {a : Operand} (hdest : i.dest? = some d)
    (hsources : i.sources = [a]) : Layout i i.mnemonic (fun c => destBytes c d ++ a.bytes c) :=
  ⟨rfl, fun c => by simp [encode, hdest, hsources]⟩

/-- R83: the destination follows the opcode, and two sources follow it in order. -/
theorem layout_dest_two_sources {i : Instr} {d : RegIdx} {a b : Operand} (hdest : i.dest? = some d)
    (hsources : i.sources = [a, b]) :
    Layout i i.mnemonic (fun c => destBytes c d ++ a.bytes c ++ b.bytes c) :=
  ⟨rfl, fun c => by simp [encode, hdest, hsources]⟩

/-! ## Frames -/

/-- Two updates in a row change at most what either of them may change. -/
theorem UnchangedExcept.trans {ps qs : List Part} {s t u : State} (h : UnchangedExcept ps s t)
    (h' : UnchangedExcept qs t u) : UnchangedExcept (ps ++ qs) s u := by
  have notMemLeft {p : Part} (hp : p ∉ ps ++ qs) : p ∉ ps :=
    fun hmem => hp (List.mem_append_left qs hmem)
  have notMemRight {p : Part} (hp : p ∉ ps ++ qs) : p ∉ qs :=
    fun hmem => hp (List.mem_append_right ps hmem)
  exact
    { cfg := h'.cfg.trans h.cfg
      img := h'.img.trans h.img
      handlers := h'.handlers.trans h.handlers
      regs := fun hp r => (h'.regs (notMemRight hp) r).trans (h.regs (notMemLeft hp) r)
      pc := fun hp => (h'.pc (notMemRight hp)).trans (h.pc (notMemLeft hp))
      flags := fun hp => (h'.flags (notMemRight hp)).trans (h.flags (notMemLeft hp))
      cs := fun hp => (h'.cs (notMemRight hp)).trans (h.cs (notMemLeft hp))
      amap := fun hp => (h'.amap (notMemRight hp)).trans (h.amap (notMemLeft hp))
      stab := fun hp => (h'.stab (notMemRight hp)).trans (h.stab (notMemLeft hp))
      arena := fun hp a => (h'.arena (notMemRight hp) a).trans (h.arena (notMemLeft hp) a)
      pixels := fun hp n i => (h'.pixels (notMemRight hp) n i).trans (h.pixels (notMemLeft hp) n i)
      abuf := fun hp => (h'.abuf (notMemRight hp)).trans (h.abuf (notMemLeft hp))
      rstate := fun hp => (h'.rstate (notMemRight hp)).trans (h.rstate (notMemLeft hp))
      fault := fun hp => (h'.fault (notMemRight hp)).trans (h.fault (notMemLeft hp))
      draws := fun hp => (h'.draws (notMemRight hp)).trans (h.draws (notMemLeft hp))
      calls := fun hp => (h'.calls (notMemRight hp)).trans (h.calls (notMemLeft hp)) }

/-- A register write changes no part of the state but the registers. -/
theorem setReg_frame (s : State) (d : RegIdx) (v : Word) :
    UnchangedExcept [.regs] s (s.setReg d v) := by
  constructor
  case arena => exact fun _ _ => rfl
  case pixels => exact fun _ _ _ => rfl
  all_goals simp

/-- A write of the flags changes no part of the state but the flags. -/
theorem setFlags_frame (s : State) (f : Flags) : UnchangedExcept [.flags] s (s.setFlags f) := by
  constructor
  case regs => exact fun _ _ => rfl
  case arena => exact fun _ _ => rfl
  case pixels => exact fun _ _ _ => rfl
  all_goals simp

/-- R160-R164: an instruction that ends with the write of its result to its destination writes that
register and moves on, and has no other effect. -/
theorem writesRegister_of_exec {i : Instr} {d : RegIdx} {v : Word} {P : Word → Prop} {s : State}
    (hexec : exec i s = .next (s.writeResult i d v)) (hv : P v) : WritesRegister i d P [] s := by
  refine ⟨s.writeResult i d v, hexec, ?_, fun r hr => ?_, ?_, ?_⟩
  · rwa [State.writeResult, reg_past, reg_setReg_self]
  · rw [State.writeResult, reg_past, reg_setReg_ne s hr]
  · rw [nextAddress_eq]
    rfl
  · exact (setReg_frame s d v).trans (past_frame (s.setReg d v) i)

/-! ## Wrapped results -/

/-- R10: a wrapped integer, read as unsigned, is its remainder modulo 2^16. -/
theorem uint_wrap16 (n : Int) : (uint (wrap16 n) : Int) = n % 65536 := by
  simp only [uint, wrap16, BitVec.toNat_ofInt]
  omega

theorem uint_aluAdd (a b : Word) : uint (aluAdd a b) = (uint a + uint b) % 65536 := by
  have h : (uint (aluAdd a b) : Int) = ((uint a : Int) + uint b) % 65536 := uint_wrap16 _
  exact_mod_cast h

theorem uint_aluSub (a b : Word) : (uint (aluSub a b) : Int) = ((uint a : Int) - uint b) % 65536 :=
  uint_wrap16 _

/-! ## MOV, ADD, SUB -/

theorem exec_mov (d : RegIdx) (a : Operand) (s : State) :
    exec (.mov d a) s = .next (s.writeResult (.mov d a) d (s.value a)) := rfl

theorem exec_add (d : RegIdx) (a b : Operand) (s : State) :
    exec (.add d a b) s =
      .next (s.writeResult (.add d a b) d (aluAdd (s.value a) (s.value b))) := rfl

theorem exec_sub (d : RegIdx) (a b : Operand) (s : State) :
    exec (.sub d a b) s =
      .next (s.writeResult (.sub d a b) d (aluSub (s.value a) (s.value b))) := rfl

/-- Settles O25: the result MOV writes is the operand's value itself. -/
theorem movCopiesTheValue : Obligations.MovCopiesTheValue := fun s d a =>
  ⟨layout_dest_one_source rfl rfl, writesRegister_of_exec (exec_mov d a s) rfl⟩

/-- Settles O26: the result ADD writes is the wrapped sum, whose unsigned value is `uint_aluAdd`. -/
theorem addWraps : Obligations.AddWraps := fun s d a b =>
  ⟨layout_dest_two_sources rfl rfl, writesRegister_of_exec (exec_add d a b s) (uint_aluAdd _ _)⟩

/-- Settles O27: the result SUB writes is the wrapped difference, whose unsigned value is
`uint_aluSub`. -/
theorem subWraps : Obligations.SubWraps := fun s d a b =>
  ⟨layout_dest_two_sources rfl rfl, writesRegister_of_exec (exec_sub d a b s) (uint_aluSub _ _)⟩

/-! ## CMP -/

theorem exec_cmp (a b : Operand) (s : State) :
    exec (.cmp a b) s =
      .next ((s.setFlags (compareFlags (s.value a) (s.value b))).past (.cmp a b)) := rfl

theorem compareFlags_eq_iff (a b : Word) : (compareFlags a b).eq = true ↔ sint a = sint b :=
  decide_eq_true_iff

theorem compareFlags_lt_iff (a b : Word) : (compareFlags a b).lt = true ↔ sint a < sint b :=
  decide_eq_true_iff

theorem compareFlags_gt_iff (a b : Word) : (compareFlags a b).gt = true ↔ sint b < sint a :=
  decide_eq_true_iff

/-- Settles O30: CMP writes the flags of the signed comparison and moves on. -/
theorem cmpSetsFlagsBySignedOrder : Obligations.CmpSetsFlagsBySignedOrder := fun s a b => by
  refine ⟨layout_two_sources rfl rfl, _, exec_cmp a b s, ?_, ?_, ?_, ?_, ?_⟩
  · exact compareFlags_eq_iff _ _
  · exact compareFlags_lt_iff _ _
  · exact compareFlags_gt_iff _ _
  · rw [nextAddress_eq]
    rfl
  · exact (setFlags_frame s _).trans (past_frame _ (.cmp a b))

end Sys2Proof.Machine

/-! SUPPORT. Decoding and encoding (30_encoding.md sections 1 to 3): each reader of the decoder
takes exactly the bytes the encoder writes for its part, and what it accepts is such bytes. A
sequence of readers inherits both, so both hold of the five formats and of the whole instruction. -/

namespace Sys2Proof

/-! ## Readers that take exactly given bytes -/

/-- Reader `p` reads the bytes `bs`, whatever follows them, as `a`, and rejects every proper
beginning of them as truncated. -/
structure ReadsExactly {α : Type} (p : Parse α) (bs : List Byte) (a : α) : Prop where
  whole : ∀ rest, p (bs ++ rest) = .ok (a, rest)
  cut : ∀ n, n < bs.length → p (bs.take n) = .error .truncated

theorem ReadsExactly.done {α : Type} (a : α) : ReadsExactly (Parse.done a) [] a :=
  ⟨fun _ => rfl, fun _ hn => absurd hn (Nat.not_lt_zero _)⟩

/-- Two readers in sequence take the bytes of the first and then those of the second; a cut falls in
the one or in the other. -/
theorem ReadsExactly.andThen {α β : Type} {p : Parse α} {f : α → Parse β} {bs cs : List Byte}
    {a : α} {b : β} (hp : ReadsExactly p bs a) (hf : ReadsExactly (f a) cs b) :
    ReadsExactly (p.andThen f) (bs ++ cs) b := by
  refine ⟨fun rest => ?_, fun n hn => ?_⟩
  · rw [List.append_assoc, andThen_ok (hp.whole _), hf.whole]
  · rw [List.length_append] at hn
    by_cases hcut : n < bs.length
    · rw [List.take_append_of_le_length hcut.le, andThen_error (hp.cut n hcut)]
    · obtain ⟨k, rfl⟩ := Nat.exists_eq_add_of_le (Nat.le_of_not_lt hcut)
      rw [List.take_length_add_append, andThen_ok (hp.whole _), hf.cut k (by omega)]

theorem readsExactly_fetch8 (b : Byte) : ReadsExactly fetch8 [b] b :=
  ⟨fun _ => rfl, fun n hn => by obtain rfl : n = 0 := Nat.lt_one_iff.1 hn; rfl⟩

theorem readsExactly_readIndex (i : RegIdx) : ReadsExactly readIndex [BitVec.ofNat 8 i.val] i :=
  ⟨readIndex_byte i, fun n hn => by obtain rfl : n = 0 := Nat.lt_one_iff.1 hn; rfl⟩

theorem readsExactly_readReg (cfg : Config) (d : RegIdx) :
    ReadsExactly (readReg cfg) (destBytes cfg d) d :=
  (readsExactly_fetch8 cfg.tagReg).andThen (by rw [if_pos rfl]; exact readsExactly_readIndex d)

theorem readsExactly_readOperand {cfg : Config} (htag : cfg.tagReg ≠ cfg.tagImm16) {a : Operand}
    (ha : a.wf cfg = true) : ReadsExactly (readOperand cfg) (a.bytes cfg) a := by
  cases a with
  | reg i =>
    refine (readsExactly_fetch8 cfg.tagReg).andThen ?_
    rw [if_pos rfl]
    exact (readsExactly_readIndex i).andThen (.done _)
  | imm16 v =>
    refine (readsExactly_fetch8 cfg.tagImm16).andThen ?_
    rw [if_neg htag.symm, if_pos rfl]
    refine (readsExactly_fetch8 (lowByte v)).andThen ((readsExactly_fetch8 (highByte v)).andThen ?_)
    rw [concat_bytes]
    exact .done _
  | lit b =>
    simp only [Operand.wf, Bool.and_eq_true, bne_iff_ne] at ha
    refine (readsExactly_fetch8 b).andThen (cs := []) ?_
    rw [if_neg ha.1, if_neg ha.2]
    exact .done _

/-! ## The formats of R83 -/

section Formats

variable {cfg : Config} (htag : cfg.tagReg ≠ cfg.tagImm16) {a b c : Operand}
include htag

theorem readsExactly_formatO (f : Operand → Instr) (h : [a].all (Operand.wf cfg) = true) :
    ReadsExactly (formatO cfg f) ([a].flatMap (Operand.bytes cfg)) (f a) := by
  rw [List.all_cons, Bool.and_eq_true] at h
  exact (readsExactly_readOperand htag h.1).andThen (.done _)

theorem readsExactly_formatOO (f : Operand → Operand → Instr)
    (h : [a, b].all (Operand.wf cfg) = true) :
    ReadsExactly (formatOO cfg f) ([a, b].flatMap (Operand.bytes cfg)) (f a b) := by
  rw [List.all_cons, Bool.and_eq_true] at h
  exact (readsExactly_readOperand htag h.1).andThen (readsExactly_formatO htag (f a) h.2)

theorem readsExactly_formatOOO (f : Operand → Operand → Operand → Instr)
    (h : [a, b, c].all (Operand.wf cfg) = true) :
    ReadsExactly (formatOOO cfg f) ([a, b, c].flatMap (Operand.bytes cfg)) (f a b c) := by
  rw [List.all_cons, Bool.and_eq_true] at h
  exact (readsExactly_readOperand htag h.1).andThen (readsExactly_formatOO htag (f a) h.2)

theorem readsExactly_formatRO (f : RegIdx → Operand → Instr) (d : RegIdx)
    (h : [a].all (Operand.wf cfg) = true) :
    ReadsExactly (formatRO cfg f) (destBytes cfg d ++ [a].flatMap (Operand.bytes cfg)) (f d a) :=
  (readsExactly_readReg cfg d).andThen (readsExactly_formatO htag (f d) h)

theorem readsExactly_formatROO (f : RegIdx → Operand → Operand → Instr) (d : RegIdx)
    (h : [a, b].all (Operand.wf cfg) = true) :
    ReadsExactly (formatROO cfg f) (destBytes cfg d ++ [a, b].flatMap (Operand.bytes cfg))
      (f d a b) :=
  (readsExactly_readReg cfg d).andThen (readsExactly_formatOO htag (f d) h)

end Formats

/-! ## Instructions -/

/-- The bytes of an instruction after its opcode byte (R83). -/
def operandBytes (cfg : Config) (i : Instr) : List Byte :=
  (i.dest?.map (destBytes cfg)).getD [] ++ i.sources.flatMap (Operand.bytes cfg)

theorem encode_eq (cfg : Config) (i : Instr) :
    encode cfg i = cfg.opcode i.mnemonic :: operandBytes cfg i := rfl

/-- The reader of a mnemonic's format takes the operand bytes of each of its instructions. -/
theorem readsExactly_readOperands {cfg : Config} (htag : cfg.tagReg ≠ cfg.tagImm16) {i : Instr}
    (hi : i.wf cfg = true) :
    ReadsExactly (readOperands cfg i.mnemonic) (operandBytes cfg i) i := by
  cases i with
  | nop | ret => exact .done _
  | sys a | jmp a | jeq a | jne a | jlt a | jgt a | bra a | beq a | bne a | blt a | bgt a | fre a
  | cls a => exact readsExactly_formatO htag _ hi
  | cmp a b => exact readsExactly_formatOO htag _ hi
  | stb a b c | pix a b c => exact readsExactly_formatOOO htag _ hi
  | mov d a | alc d a => exact readsExactly_formatRO htag _ d hi
  | add d a b | sub d a b | mul d a b | div d a b | ldb d a b =>
    exact readsExactly_formatROO htag _ d hi

/-- After an opcode byte the decoder reads the operands that its format takes (R123). -/
theorem decode_opcode {cfg : Config} (hopc : cfg.opc.toList.Nodup) (m : Mnemonic) (bs : List Byte) :
    decode cfg (cfg.opcode m :: bs) = readOperands cfg m bs := by
  rw [decode, andThen_ok (fetch8_cons _ _), mnemonicOf_opcode hopc]

theorem readsExactly_decode {cfg : Config} (hcfg : cfg.Valid) {i : Instr} (hi : i.wf cfg = true) :
    ReadsExactly (decode cfg) (encode cfg i) i := by
  obtain ⟨hopc, htag, -⟩ := hcfg
  refine (readsExactly_fetch8 (cfg.opcode i.mnemonic)).andThen ?_
  rw [mnemonicOf_opcode hopc]
  exact readsExactly_readOperands htag hi

/-- Settles O3: the decoder reads exactly the encoder's bytes, part by part. -/
theorem decodeOfEncodeIsIdentity : Obligations.DecodeOfEncodeIsIdentity :=
  fun _ _ rest hcfg hi => (readsExactly_decode hcfg hi).whole rest

/-- Settles O8: a cut encoding ends inside one of its parts, whose reader answers truncation. -/
theorem truncatedEncodingFaults : Obligations.TruncatedEncodingFaults :=
  fun _ _ n hcfg hi _ hn => (readsExactly_decode hcfg hi).cut n hn

/-! ## What a reader accepts -/

section Accepted

variable {cfg : Config} {bs rest : List Byte} {i : Instr}

theorem formatO_eq_ok {f : Operand → Instr} (h : formatO cfg f bs = .ok (i, rest)) :
    ∃ a, i = f a ∧ [a].all (Operand.wf cfg) = true ∧
      bs = [a].flatMap (Operand.bytes cfg) ++ rest := by
  obtain ⟨a, mid, ha, hdone⟩ := andThen_eq_ok.1 h
  obtain ⟨hwf, rfl⟩ := readOperand_eq_ok ha
  cases hdone
  exact ⟨a, rfl, by simp [hwf], by simp⟩

theorem formatOO_eq_ok {f : Operand → Operand → Instr} (h : formatOO cfg f bs = .ok (i, rest)) :
    ∃ a b, i = f a b ∧ [a, b].all (Operand.wf cfg) = true ∧
      bs = [a, b].flatMap (Operand.bytes cfg) ++ rest := by
  obtain ⟨a, mid, ha, hb⟩ := andThen_eq_ok.1 h
  obtain ⟨hwf, rfl⟩ := readOperand_eq_ok ha
  obtain ⟨b, rfl, hwfs, rfl⟩ := formatO_eq_ok hb
  exact ⟨a, b, rfl, by rw [List.all_cons, hwf, hwfs]; rfl, by simp⟩

theorem formatOOO_eq_ok {f : Operand → Operand → Operand → Instr}
    (h : formatOOO cfg f bs = .ok (i, rest)) :
    ∃ a b c, i = f a b c ∧ [a, b, c].all (Operand.wf cfg) = true ∧
      bs = [a, b, c].flatMap (Operand.bytes cfg) ++ rest := by
  obtain ⟨a, mid, ha, hbc⟩ := andThen_eq_ok.1 h
  obtain ⟨hwf, rfl⟩ := readOperand_eq_ok ha
  obtain ⟨b, c, rfl, hwfs, rfl⟩ := formatOO_eq_ok hbc
  exact ⟨a, b, c, rfl, by rw [List.all_cons, hwf, hwfs]; rfl, by simp⟩

theorem formatRO_eq_ok {f : RegIdx → Operand → Instr} (h : formatRO cfg f bs = .ok (i, rest)) :
    ∃ d a, i = f d a ∧ [a].all (Operand.wf cfg) = true ∧
      bs = destBytes cfg d ++ [a].flatMap (Operand.bytes cfg) ++ rest := by
  obtain ⟨d, mid, hd, ha⟩ := andThen_eq_ok.1 h
  obtain rfl := readReg_eq_ok.1 hd
  obtain ⟨a, rfl, hwf, rfl⟩ := formatO_eq_ok ha
  exact ⟨d, a, rfl, hwf, (List.append_assoc ..).symm⟩

theorem formatROO_eq_ok {f : RegIdx → Operand → Operand → Instr}
    (h : formatROO cfg f bs = .ok (i, rest)) :
    ∃ d a b, i = f d a b ∧ [a, b].all (Operand.wf cfg) = true ∧
      bs = destBytes cfg d ++ [a, b].flatMap (Operand.bytes cfg) ++ rest := by
  obtain ⟨d, mid, hd, hab⟩ := andThen_eq_ok.1 h
  obtain rfl := readReg_eq_ok.1 hd
  obtain ⟨a, b, rfl, hwf, rfl⟩ := formatOO_eq_ok hab
  exact ⟨d, a, b, rfl, hwf, (List.append_assoc ..).symm⟩

/-- What the reader of a mnemonic's format accepts is an instruction of that mnemonic, and its
operand bytes are what was read. -/
theorem readOperands_eq_ok {m : Mnemonic} (h : readOperands cfg m bs = .ok (i, rest)) :
    i.mnemonic = m ∧ i.wf cfg = true ∧ bs = operandBytes cfg i ++ rest := by
  cases m with
  | nop | ret =>
    cases h
    exact ⟨rfl, rfl, rfl⟩
  | sys | jmp | jeq | jne | jlt | jgt | bra | beq | bne | blt | bgt | fre | cls =>
    obtain ⟨a, rfl, hwf, rfl⟩ := formatO_eq_ok h
    exact ⟨rfl, hwf, rfl⟩
  | cmp =>
    obtain ⟨a, b, rfl, hwf, rfl⟩ := formatOO_eq_ok h
    exact ⟨rfl, hwf, rfl⟩
  | stb | pix =>
    obtain ⟨a, b, c, rfl, hwf, rfl⟩ := formatOOO_eq_ok h
    exact ⟨rfl, hwf, rfl⟩
  | mov | alc =>
    obtain ⟨d, a, rfl, hwf, rfl⟩ := formatRO_eq_ok h
    exact ⟨rfl, hwf, rfl⟩
  | add | sub | mul | div | ldb =>
    obtain ⟨d, a, b, rfl, hwf, rfl⟩ := formatROO_eq_ok h
    exact ⟨rfl, hwf, rfl⟩

theorem decode_eq_ok (h : decode cfg bs = .ok (i, rest)) :
    i.wf cfg = true ∧ bs = encode cfg i ++ rest := by
  obtain ⟨op, mid, hop, hi⟩ := andThen_eq_ok.1 h
  obtain rfl := fetch8_eq_ok.1 hop
  cases hm : mnemonicOf cfg op with
  | none =>
    simp only [hm] at hi
    cases hi
  | some m =>
    simp only [hm] at hi
    obtain ⟨rfl, hwf, rfl⟩ := readOperands_eq_ok hi
    rw [encode_eq, mnemonicOf_eq_some hm]
    exact ⟨hwf, rfl⟩

end Accepted

/-- Settles O4: what each reader accepts is the encoder's bytes for the part it gives. -/
theorem decodedBytesAreTheEncoding : Obligations.DecodedBytesAreTheEncoding :=
  fun _ _ _ _ h => decode_eq_ok h

end Sys2Proof

/-! SUPPORT. What the decoder makes of single bytes (30_encoding.md sections 1 and 3): illegal
opcodes, destinations that are no register, the values of the three operand forms, and lengths by
format. -/

namespace Sys2Proof

open Machine

/-! ## Opcode bytes -/

/-- R85: with the default map the opcode byte of a mnemonic is its row in the table. -/
theorem default_opcode (m : Mnemonic) : Config.default.opcode m = BitVec.ofNat 8 m.row.val := by
  cases m <;> rfl

theorem Mnemonic.row_surjective (r : Fin 25) : ∃ m : Mnemonic, m.row = r :=
  ⟨Mnemonic.all[r.val]'r.isLt, by revert r; decide⟩

/-- R86: the default map leaves exactly the bytes from 0x19 on without a mnemonic. -/
theorem default_illegal_iff (b : Byte) :
    (∀ m, Config.default.opcode m ≠ b) ↔ 25 ≤ b.toNat := by
  constructor
  · intro h
    by_contra hlt
    obtain ⟨m, hm⟩ := Mnemonic.row_surjective ⟨b.toNat, Nat.lt_of_not_le hlt⟩
    exact h m (by rw [default_opcode, hm, BitVec.ofNat_toNat, BitVec.setWidth_eq])
  · rintro h m rfl
    have hrow := m.row.isLt
    rw [default_opcode, BitVec.toNat_ofNat] at h
    omega

/-- R86: a byte that is no opcode is rejected as such. -/
theorem decode_unknownOpcode {cfg : Config} {b : Byte} (h : ∀ m, cfg.opcode m ≠ b)
    (rest : List Byte) : decode cfg (b :: rest) = .error .unknownOpcode := by
  rw [decode, andThen_ok (fetch8_cons b rest), mnemonicOf_eq_none.2 h]
  rfl

theorem default_valid : Config.default.Valid := by decide

/-- The default parameters read an encoding of R93's table back. -/
theorem decode_default_encode {i : Instr} (hi : i.wf Config.default = true) :
    decode Config.default (encode Config.default i) = .ok (i, []) := by
  simpa using decodeOfEncodeIsIdentity Config.default i [] default_valid hi

/-- Settles O1: each word is the encoding of its instruction under the default parameters. -/
theorem workedEncodingsDecode : Obligations.WorkedEncodingsDecode :=
  ⟨decode_default_encode (i := .mov 0 (.imm16 5)) rfl,
    decode_default_encode (i := .add 2 (.reg 0) (.reg 1)) rfl,
    decode_default_encode (i := .sys (.imm16 0)) rfl,
    decode_default_encode (i := .stb (.reg 0) (.imm16 0) (.lit 65)) rfl,
    decode_default_encode (i := .jeq (.imm16 21)) rfl,
    decode_default_encode (i := .ret) rfl⟩

/-- Settles O2: the defaults are what the definition lists, and they are valid. -/
theorem defaultParameters : Obligations.DefaultParameters :=
  ⟨by decide, rfl, rfl, rfl, rfl, rfl, rfl, rfl, rfl, default_valid⟩

/-! ## Destinations (R92) -/

theorem readIndex_of_ge {b : Byte} (h : 16 ≤ b.toNat) (rest : List Byte) :
    readIndex (b :: rest) = .error .invalidRegister := by
  rw [readIndex, andThen_ok (fetch8_cons b rest), dif_neg (Nat.not_lt.2 h)]
  rfl

theorem readReg_of_ne_tag {cfg : Config} {b : Byte} (h : b ≠ cfg.tagReg) (rest : List Byte) :
    readReg cfg (b :: rest) = .error .expectedRegister := by
  rw [readReg, andThen_ok (fetch8_cons b rest), if_neg h]
  rfl

theorem readReg_of_index_ge {cfg : Config} {b : Byte} (h : 16 ≤ b.toNat) (rest : List Byte) :
    readReg cfg (cfg.tagReg :: b :: rest) = .error .invalidRegister := by
  rw [readReg, andThen_ok (fetch8_cons _ _), if_pos rfl, readIndex_of_ge h]

/-- In an instruction with a destination the first rejection is that of the destination (R89). -/
theorem readOperands_of_readReg_error {cfg : Config} {m : Mnemonic} {bs : List Byte}
    {e : DecodeError} (hm : m ∈ [Mnemonic.mov, .add, .sub, .mul, .div, .alc, .ldb])
    (h : readReg cfg bs = .error e) : readOperands cfg m bs = .error e := by
  simp only [List.mem_cons, List.not_mem_nil, or_false] at hm
  obtain rfl | rfl | rfl | rfl | rfl | rfl | rfl := hm <;> exact andThen_error h

/-- Settles O6: the destination is read first, by `readReg`. -/
theorem destinationMustBeRegister : Obligations.DestinationMustBeRegister := by
  rintro cfg m b rest ⟨hopc, -⟩ hm
  rw [decode_opcode hopc, decode_opcode hopc]
  exact ⟨fun hb => readOperands_of_readReg_error hm (readReg_of_ne_tag hb rest),
    fun hb => readOperands_of_readReg_error hm (readReg_of_index_ge hb rest)⟩

/-! ## Source operands (R81, R91) -/

theorem readOperand_of_index_ge {cfg : Config} {b : Byte} (h : 16 ≤ b.toNat) (rest : List Byte) :
    readOperand cfg (cfg.tagReg :: b :: rest) = .error .invalidRegister := by
  rw [readOperand, andThen_ok (fetch8_cons _ _), if_pos rfl, andThen_error (readIndex_of_ge h rest)]

theorem uint_concat (hi lo : Byte) : uint (concat hi lo) = hi.toNat * 256 + lo.toNat := by
  have hlo := lo.isLt
  rw [uint, concat, BitVec.toNat_append, ← Nat.shiftLeft_add_eq_or_of_lt hlo, Nat.shiftLeft_eq]

/-- Settles O7: each form's bytes are the encoding of the operand it reads as. -/
theorem operandFormsAndValues : Obligations.OperandFormsAndValues := by
  rintro cfg s b lo hi rest ⟨-, htag, -⟩
  refine ⟨fun i hb => ⟨?reg, rfl⟩, fun hb => readOperand_of_index_ge hb rest,
    ⟨concat hi lo, ?imm16, uint_concat hi lo⟩, fun hreg himm => ⟨?lit, uint_zext16 b⟩⟩
  case reg =>
    obtain rfl : b = BitVec.ofNat 8 i.val := by rw [← hb, BitVec.ofNat_toNat, BitVec.setWidth_eq]
    exact readOperand_bytes htag (a := .reg i) rfl rest
  case imm16 =>
    have h := readOperand_bytes htag (a := .imm16 (concat hi lo)) rfl rest
    rwa [Operand.bytes, lowByte_concat, highByte_concat] at h
  case lit => exact readOperand_bytes htag (a := .lit b) (by simp [Operand.wf, hreg, himm]) rest

/-! ## Lengths (R83) -/

/-- Each source operand takes 1 to 3 bytes. -/
theorem sum_operandSizes_bounds (as : List Operand) :
    as.length ≤ (as.map Operand.size).sum ∧ (as.map Operand.size).sum ≤ 3 * as.length := by
  induction as with
  | nil => exact ⟨le_rfl, le_rfl⟩
  | cons a as ih =>
    have ha := operandSize_bounds a
    simp only [List.map_cons, List.sum_cons, List.length_cons]
    omega

/-- R83's format table by the destination and the number of source operands. -/
theorem formatLengths_eq (i : Instr) : formatLengths i.mnemonic =
    (1 + (if i.dest?.isSome then 2 else 0) + i.sources.length,
      1 + (if i.dest?.isSome then 2 else 0) + 3 * i.sources.length) := by
  cases i <;> rfl

theorem size_in_formatLengths (i : Instr) :
    (formatLengths i.mnemonic).1 ≤ i.size ∧ i.size ≤ (formatLengths i.mnemonic).2 := by
  obtain ⟨hlow, hhigh⟩ := sum_operandSizes_bounds i.sources
  rw [formatLengths_eq, Instr.size]
  exact ⟨Nat.add_le_add_left hlow _, Nat.add_le_add_left hhigh _⟩

/-- Settles O9: the encoder writes `Instr.size` bytes, whose range is `size_in_formatLengths`. -/
theorem encodingLengthByFormat : Obligations.EncodingLengthByFormat := by
  intro cfg i
  simp only [length_encode, length_operandBytes]
  exact ⟨rfl, operandSize_bounds, size_in_formatLengths i⟩

end Sys2Proof

/-! SUPPORT. The loop (40_execution_loop.md): every way a step that answers a next state can go, and
what follows from it about faults, run states and the parts no step writes. -/

namespace Sys2Proof.Machine

/-! ## Decoding at `pc` -/

/-- An image that has bytes left at `pc` is longer than `pc`. -/
theorem pc_lt_of_drop_eq_cons {s : State} {b : Byte} {rest : List Byte}
    (h : s.img.drop s.pc = b :: rest) : s.pc < s.img.length := by
  by_contra hge
  simp [List.drop_eq_nil_of_le (Nat.le_of_not_lt hge)] at h

/-- What decodes at `pc` lies inside the image (30_encoding.md R90): the next instruction in
sequence starts inside it or at its end. -/
theorem pcAfter_le_of_decode {s : State} {i : Instr} {rest : List Byte}
    (h : decode s.cfg (s.img.drop s.pc) = .ok (i, rest)) : s.pcAfter i ≤ s.img.length := by
  have hlen := congrArg List.length (decode_eq_ok h).2
  have hpc := pc_lt_of_drop_eq_cons (decode_eq_ok h).2
  rw [List.length_drop, List.length_append, length_encode] at hlen
  rw [State.pcAfter]
  omega

/-- R123: a running step is the instruction that decodes at `pc`. -/
theorem step_of_decode {s : State} {i : Instr} {rest : List Byte} (hrun : s.rstate = .running)
    (h : decode s.cfg (s.img.drop s.pc) = .ok (i, rest)) : step s = exec i s := by
  have hpc := pc_lt_of_drop_eq_cons (decode_eq_ok h).2
  obtain ⟨hend, -⟩ | ⟨-, e, he, -⟩ | ⟨-, j, rest', hj, hstep⟩ := step_running_cases hrun
  · exact absurd hpc (Nat.not_lt.2 hend)
  · cases h.symm.trans he
  · cases h.symm.trans hj
    exact hstep

/-- 30_encoding.md R86, R90-R92: a running step takes the fault of what the decoder rejects. -/
theorem step_of_decode_error {s : State} {e : DecodeError} (hrun : s.rstate = .running)
    (hpc : s.pc < s.img.length) (h : decode s.cfg (s.img.drop s.pc) = .error e) :
    step s = .next (s.raise (faultOfDecode e) s.pc) := by
  obtain ⟨hend, -⟩ | ⟨-, e', he, hstep⟩ | ⟨-, i, rest, hi, -⟩ := step_running_cases hrun
  · exact absurd hpc (Nat.not_lt.2 hend)
  · cases h.symm.trans he
    exact hstep
  · cases h.symm.trans hi

/-- Settles O10: bytes that decode are bytes left in the image, so the halt check fails. -/
theorem stepRunsTheDecodedInstruction : Obligations.StepRunsTheDecodedInstruction :=
  fun _ _ _ hrun h => step_of_decode hrun h

/-- Settles O11: the encoding decodes to its instruction. -/
theorem stepRunsTheEncodedInstruction : Obligations.StepRunsTheEncodedInstruction :=
  fun s i rest hcfg hrun hi himg =>
    step_of_decode hrun (himg ▸ decodeOfEncodeIsIdentity s.cfg i rest hcfg hi)

/-- Settles O5: an illegal byte at `pc` is a decoder rejection. -/
theorem illegalOpcodeFaults : Obligations.IllegalOpcodeFaults := by
  refine ⟨default_illegal_iff, fun s b rest hrun himg hb => ?_⟩
  exact ⟨_, step_of_decode_error hrun (pc_lt_of_drop_eq_cons himg)
    (himg ▸ decode_unknownOpcode hb rest), faultTaken_raise _ s⟩

/-- Settles O17: the fault is `faultOfDecode`, whose codes are R231's. -/
theorem decoderFaultIsTakenFirst : Obligations.DecoderFaultIsTakenFirst := by
  refine fun s e hrun hpc he =>
    ⟨_, _, step_of_decode_error hrun hpc he, faultTaken_raise _ s, ?_, ?_, ?_, ?_⟩
  all_goals
    rintro rfl
    rfl

/-! ## What a step can do -/

/-- A step with a next state begins the run, halts, raises a fault at `pc`, or has the effect of the
instruction at `pc`. -/
theorem step_cases {s t : State} (h : step s = .next t) :
    (s.rstate = .ready ∧ t = s.beginRun) ∨
    (s.rstate = .running ∧ (t = s.halt ∨ (∃ k, t = s.raise k s.pc) ∨ ∃ i, Effect i s t)) := by
  cases hr : s.rstate with
  | ready =>
    rw [step, hr] at h
    cases h
    exact .inl ⟨rfl, rfl⟩
  | running =>
    refine .inr ⟨rfl, ?_⟩
    obtain ⟨-, hstep⟩ | ⟨-, e, -, hstep⟩ | ⟨-, i, rest, -, hstep⟩ := step_running_cases hr
    · cases hstep.symm.trans h
      exact .inl rfl
    · cases hstep.symm.trans h
      exact .inr (.inl ⟨_, rfl⟩)
    · obtain ⟨k, -, rfl⟩ | heffect := exec_cases (hstep.symm.trans h)
      · exact .inr (.inl ⟨k, rfl⟩)
      · exact .inr (.inr ⟨i, heffect⟩)
  | halted =>
    rw [step, hr] at h
    cases h
  | faulted =>
    rw [step, hr] at h
    cases h

/-- R120: no running step is refused. -/
theorem step_next {s : State} (hrun : s.rstate = .running) : ∃ t, step s = .next t := by
  obtain ⟨-, hstep⟩ | ⟨-, e, -, hstep⟩ | ⟨-, i, rest, -, hstep⟩ := step_running_cases hrun
  · exact ⟨_, hstep⟩
  · exact ⟨_, hstep⟩
  · rw [hstep]
    exact exec_next i s

/-- An instruction without a fault leaves a running block Running or Halted. -/
theorem Effect.running_or_halted {i : Instr} {s t : State} (h : Effect i s t)
    (hrun : s.rstate = .running) : t.rstate = .running ∨ t.rstate = .halted := by
  obtain hsame | ⟨-, hhalt⟩ := h.rstate
  · exact .inl (hsame.trans hrun)
  · exact .inr hhalt

theorem Effect.not_faulted {i : Instr} {s t : State} (h : Effect i s t)
    (hrun : s.rstate = .running) : t.rstate ≠ .faulted := by
  obtain ht | ht := h.running_or_halted hrun <;> simp [ht]

/-- Settles O13: each way a running step goes has its run state. -/
theorem runningStepHasNextState : Obligations.RunningStepHasNextState := by
  intro s hrun
  obtain ⟨t, ht⟩ := step_next hrun
  refine ⟨t, ht, ?_⟩
  obtain ⟨hready, -⟩ | ⟨-, rfl | ⟨k, rfl⟩ | ⟨i, heffect⟩⟩ := step_cases ht
  · simp [hrun] at hready
  · exact .inr (.inl (halt_rstate s))
  · exact .inr (.inr ⟨raise_rstate s k s.pc, k, raise_fault s k s.pc⟩)
  · obtain h | h := heffect.running_or_halted hrun
    · exact .inl h
    · exact .inr (.inl h)

/-- Settles O14: a step leaves Ready by beginning the run, and Running as O13 says. -/
theorem runStateMachine : Obligations.RunStateMachine := by
  intro s t ht
  obtain ⟨hready, rfl⟩ | ⟨hrun, -⟩ := step_cases ht
  · exact .inl ⟨hready, beginRun_rstate s⟩
  · obtain ⟨t', ht', hstate⟩ := runningStepHasNextState s hrun
    cases ht'.symm.trans ht
    exact .inr ⟨hrun, hstate.imp_right (Or.imp_right And.left)⟩

/-- R237: what `run()` returns once a fault was taken. -/
theorem report_raise (s : State) (k : FaultKind) (a : Nat) :
    (s.raise k a).report = some (.faulted k.message a) := rfl

/-- Settles O15: the one way into Faulted is `raise` at `pc`. -/
theorem faultingStepWritesOnlyTheRecord : Obligations.FaultingStepWritesOnlyTheRecord := by
  intro s t hrun ht hfault
  obtain ⟨hready, -⟩ | ⟨-, rfl | ⟨k, rfl⟩ | ⟨i, heffect⟩⟩ := step_cases ht
  · simp [hrun] at hready
  · simp at hfault
  · exact ⟨k, faultTaken_raise k s, report_raise s k s.pc⟩
  · exact absurd hfault (heffect.not_faulted hrun)

/-- Settles O16: `exec` raises a fault of the table's at `pc`, or none. -/
theorem instructionRaisesOnlyItsFaults : Obligations.InstructionRaisesOnlyItsFaults := by
  intro i s t hrun ht hfault
  obtain ⟨k, hk, rfl⟩ | heffect := exec_cases ht
  · exact ⟨k, hk, raise_fault s k s.pc⟩
  · exact absurd hfault (heffect.not_faulted hrun)

/-- Settles O50: no way a step goes writes the image, the table or the parameters. -/
theorem noStepChangesTheImage : Obligations.NoStepChangesTheImage := by
  intro s t ht
  obtain ⟨-, rfl⟩ | ⟨-, rfl | ⟨k, rfl⟩ | ⟨i, heffect⟩⟩ := step_cases ht
  · exact ⟨rfl, rfl, rfl⟩
  · exact ⟨rfl, rfl, rfl⟩
  · exact ⟨rfl, rfl, rfl⟩
  · exact ⟨heffect.img, heffect.handlers, heffect.cfg⟩

/-! ## Runs without an end (R127, R128) -/

/-- A block whose step changes nothing runs for ever, whatever the number of steps asked for. -/
theorem runs_for_ever {s : State} (h : step s = .next s) :
    step s = .next s ∧ ∀ n, Sys2Proof.core.run n s = .next s :=
  ⟨h, coreRun_fixed h⟩

/-- Settles O18: the jump sets `pc` to what it is. -/
theorem selfJumpRunsForEver : Obligations.SelfJumpRunsForEver := by
  intro s a rest hrun hdec htarget
  have hjump : exec (.jmp a) s = .next (s.setPc (uint (s.value a))) := rfl
  exact runs_for_ever ((step_of_decode hrun hdec).trans (by rw [hjump, htarget]; rfl))

/-! ## The host's calls (70_reset_and_hazards.md R262, 41_system.md R143) -/

theorem registerHandler_eq_next {s t : State} {h : Handler} : s.registerHandler h = .next t ↔
    s.rstate = .ready ∧ s.handlers.length < syscallCap ∧
      t = { s with handlers := s.handlers ++ [h] } := by
  unfold State.registerHandler
  split
  · simp_all
  · split <;> simp_all [eq_comm]

theorem load_eq_next {s t : State} {bytes : List Byte} : s.load bytes = .next t ↔
    s.rstate = .ready ∧ bytes.length < 2 ^ s.cfg.ipBits ∧ t = s.putImage bytes := by
  unfold State.load
  split
  · simp_all
  · split <;> simp_all [eq_comm]

theorem run_eq_next {s t : State} : s.run = .next t ↔ s.rstate = .ready ∧ t = s.beginRun := by
  unfold State.run
  split <;> simp_all [eq_comm]

/-- Settles O24: the call's conditions are those of `registerHandler_eq_next`, and no step writes
the table. -/
theorem registerHandlerAppends : Obligations.RegisterHandlerAppends := by
  refine ⟨fun s h hready => ⟨fun hroom => ?_, fun hfull t ht => ?_⟩, fun s h hbegun t ht => ?_,
    fun s t ht => (noStepChangesTheImage s t ht).2.1⟩
  · exact ⟨_, registerHandler_eq_next.2 ⟨hready, hroom, rfl⟩, List.getElem?_concat_length,
      fun k hk => List.getElem?_append_left hk, by simp, rfl⟩
  · obtain ⟨-, hroom, -⟩ := registerHandler_eq_next.1 ht
    exact absurd hroom (Nat.not_lt.2 hfull)
  · exact hbegun (registerHandler_eq_next.1 ht).1

/-- Settles O54: `load` and `run` succeed before the run only, and the first step is `run`. -/
theorem loadSetsImageAndPc : Obligations.LoadSetsImageAndPc := by
  refine fun s bytes => ⟨fun hready hfits => ?_, fun hbegun t => ⟨fun ht => ?_, fun ht => ?_⟩⟩
  · exact ⟨s.putImage bytes, load_eq_next.2 ⟨hready, hfits, rfl⟩, rfl, rfl, rfl, rfl, rfl, rfl⟩
  · exact hbegun (load_eq_next.1 ht).1
  · exact hbegun (run_eq_next.1 ht).1

end Sys2Proof.Machine

/-! SUPPORT. The machine's invariant: one rule per operation of the state, then one case per kind of
instruction. `pc` stays in range because what was decoded lies inside the image. -/

namespace Sys2Proof.Machine

/-! ## The operations keep the invariant -/

section Rules

variable {s t : State}

theorem State.Inv.memories (h : s.Inv) : MemoriesOk s :=
  ⟨h.arenaWf, h.arenaBelow, h.pixelsWf, h.pixelsBelow⟩

/-- 10_state.md R24: `pc` has room for every 16-bit value. -/
theorem State.Inv.uint_lt (h : s.Inv) (v : Word) : uint v < 2 ^ s.cfg.ipBits := by
  obtain ⟨-, -, -, -, hbits⟩ := h.cfgValid
  exact v.isLt.trans_le (Nat.pow_le_pow_right two_pos hbits)

theorem State.Inv.setPc (h : s.Inv) {a : Nat} (ha : a < 2 ^ s.cfg.ipBits) : (s.setPc a).Inv :=
  { h with
    pcFits := ha
    alloc := allocInv_congr (s := s) rfl rfl rfl h.alloc }

theorem State.Inv.past (h : s.Inv) {i : Instr} (hi : s.pcAfter i ≤ s.img.length) :
    (s.past i).Inv :=
  h.setPc (hi.trans_lt h.imageFits)

theorem State.Inv.setReg (h : s.Inv) (d : RegIdx) (v : Word) : (s.setReg d v).Inv :=
  { h with alloc := allocInv_setReg.2 h.alloc }

theorem State.Inv.setFlags (h : s.Inv) {f : Flags} (hf : f.atMostOne) : (s.setFlags f).Inv :=
  { h with
    flagsOk := hf
    alloc := allocInv_congr (s := s) rfl rfl rfl h.alloc }

theorem State.Inv.raise (h : s.Inv) (k : FaultKind) : (s.raise k s.pc).Inv :=
  { h with
    alloc := allocInv_raise.2 h.alloc
    faultRecord := by simp
    readyStackEmpty := by simp }

theorem State.Inv.fault_eq_none (h : s.Inv) (hrun : s.rstate ≠ .faulted) : s.fault = none := by
  rwa [← Option.not_isSome_iff_eq_none, ← h.faultRecord]

theorem State.Inv.halt (h : s.Inv) (hrun : s.rstate ≠ .faulted) : s.halt.Inv :=
  { h with
    alloc := allocInv_congr (s := s) rfl rfl rfl h.alloc
    faultRecord := by simp [h.fault_eq_none hrun]
    readyStackEmpty := by simp }

theorem State.Inv.beginRun (h : s.Inv) (hrun : s.rstate ≠ .faulted) : s.beginRun.Inv :=
  { h with
    alloc := allocInv_congr (s := s) rfl rfl rfl h.alloc
    faultRecord := by simp [h.fault_eq_none hrun]
    readyStackEmpty := by simp }

/-- R30: a push with room, of an address inside the image or at its end, during the run. -/
theorem State.Inv.push (h : s.Inv) (hrun : s.rstate ≠ .ready) {v : Nat} (hv : v ≤ s.img.length)
    (hpush : s.push v = some t) : t.Inv := by
  obtain ⟨hroom, rfl⟩ := push_eq_some.1 hpush
  exact
    { h with
      alloc := allocInv_congr (s := s) rfl rfl rfl h.alloc
      stackDepth := by
        rw [List.length_append]
        exact Nat.lt_of_le_of_ne h.stackDepth hroom
      stackInImage := List.forall_mem_append.2 ⟨h.stackInImage, List.forall_mem_singleton.2 hv⟩
      readyStackEmpty := fun hready => absurd hready hrun }

/-- R30: a pop keeps the invariant, and gives an address inside the image or at its end. -/
theorem State.Inv.pop (h : s.Inv) {v : Nat} (hpop : s.pop = some (v, t)) :
    t.Inv ∧ v ≤ t.img.length := by
  obtain ⟨hlast, rfl⟩ := pop_eq_some.1 hpop
  refine ⟨?_, h.stackInImage v (List.mem_of_getLast? hlast)⟩
  exact
    { h with
      alloc := allocInv_congr (s := s) rfl rfl rfl h.alloc
      stackDepth := by
        rw [List.length_dropLast]
        exact (Nat.sub_le _ _).trans h.stackDepth
      stackInImage := fun w hw => h.stackInImage w (List.mem_of_mem_dropLast hw)
      readyStackEmpty := fun hready => by rw [h.readyStackEmpty hready, List.dropLast_nil] }

theorem State.Inv.allocate (h : s.Inv) {n p : Nat} (hn : n ≠ 0)
    (halloc : s.allocate n = some (p, t)) : t.Inv := by
  have ht := allocInv_allocate h.alloc hn halloc
  obtain ⟨-, rfl⟩ := allocate_eq_some.1 halloc
  exact { h with alloc := ht }

theorem State.Inv.free (h : s.Inv) {p : Nat} (hfree : s.free p = some t) : t.Inv := by
  have ht := allocInv_free h.alloc hfree
  obtain ⟨n, -, rfl⟩ := free_eq_some.1 hfree
  exact { h with alloc := ht }

theorem State.Inv.memRead (h : s.Inv) (a : Nat) : (s.memRead a).2.Inv := by
  obtain hsame | hdraw := memRead_state s a
  · rwa [hsame]
  · rw [hdraw]
    exact { h with alloc := allocInv_congr (s := s) rfl rfl rfl h.alloc }

theorem State.Inv.memWrite (h : s.Inv) {a : Nat} (ha : a < s.cfg.arenaSize) (b : Byte) :
    (s.memWrite a b).Inv :=
  { h with
    alloc := allocInv_congr (s := s) rfl rfl rfl h.alloc
    arenaWf := wf_write h.arenaWf a b
    arenaBelow := below_write h.arenaBelow ha b }

theorem State.Inv.setBuffer (h : s.Inv) (n : Fin 2) {m : Memory} (hwf : m.wf = true)
    (hbelow : m.below s.cfg.pixels = true) : (s.setBuffer n m).Inv :=
  { h with
    alloc := allocInv_congr (s := s) rfl rfl rfl h.alloc
    pixelsWf := (memoriesOk_setBuffer h.memories n hwf hbelow).pixelsWf
    pixelsBelow := (memoriesOk_setBuffer h.memories n hwf hbelow).pixelsBelow }

theorem State.Inv.setPixel (h : s.Inv) (n : Fin 2) {i : Nat} (hi : i < s.cfg.pixels) (c : Byte) :
    (s.setPixel n i c).Inv :=
  h.setBuffer n (wf_write (h.pixelsWf n) i c) (below_write (h.pixelsBelow n) hi c)

theorem State.Inv.pixFill (h : s.Inv) (c : Byte) : (s.pixFill c).Inv :=
  h.setBuffer s.abuf (wf_fill _ c) (below_fill _ c)

theorem State.Inv.applyAbuf (h : s.Inv) (n : Option (Fin 2)) : (s.applyAbuf n).Inv :=
  { h with alloc := allocInv_congr (s := s) rfl rfl rfl h.alloc }

/-- 41_system.md R142: all a handler's writes keep the invariant, since each of them does. -/
theorem State.Inv.applyReply (h : s.Inv) (r : HandlerReply) : (s.applyReply r).Inv := by
  obtain ⟨u, hu, heq⟩ := applyReply_induct (P := State.Inv) r s h
    (fun _ d v hu => hu.setReg d v) (fun _ _ b ha hu => hu.memWrite ha b)
    (fun _ n _ c hi hu => hu.setPixel n hi c) (fun _ n hu => hu.applyAbuf n)
  rw [heq]
  exact { hu with alloc := allocInv_congr (s := u) rfl rfl rfl hu.alloc }

theorem rstate_applyReply (r : HandlerReply) (s : State) : (s.applyReply r).rstate = s.rstate := by
  obtain ⟨hframe, -⟩ := applyReply_frame r s
  simp only [handlerFrame, Prod.mk.injEq] at hframe
  obtain ⟨-, -, -, hrstate, -⟩ := hframe
  exact hrstate

theorem State.Inv.finishCall (h : s.Inv) (hrun : s.rstate ≠ .faulted) (r : HandlerReply) :
    (s.finishCall r).Inv := by
  unfold State.finishCall
  split
  · exact h.applyReply r
  · exact (h.applyReply r).halt (by rwa [rstate_applyReply])

/-- R180-R184: a jump goes to a 16-bit target or to the next instruction. -/
theorem State.Inv.jump (h : s.Inv) {i : Instr} (hi : s.pcAfter i ≤ s.img.length) (a : Operand)
    (taken : Bool) : (s.jump i a taken).Inv := by
  unfold State.jump
  split
  · exact h.setPc (h.uint_lt _)
  · exact h.past hi

/-- R185: what a branch-and-link pushes is the address of the next instruction. -/
theorem State.Inv.branchLink (h : s.Inv) (hrun : s.rstate ≠ .ready) {i : Instr}
    (hi : s.pcAfter i ≤ s.img.length) (a : Operand) (taken : Bool) :
    (s.branchLink i a taken).Inv := by
  unfold State.branchLink
  split
  · split
    · rename_i u hpush
      have hcfg : u.cfg = s.cfg := by obtain ⟨-, rfl⟩ := push_eq_some.1 hpush; rfl
      exact (h.push hrun hi hpush).setPc (hcfg ▸ h.uint_lt _)
    · exact h.raise _
  · exact h.past hi

end Rules

/-! ## Instructions and steps -/

/-- R25, R171: a comparison sets one flag, so at most one is set. -/
theorem compareFlags_atMostOne (a b : Word) : (compareFlags a b).atMostOne := by
  simp only [Flags.atMostOne, ← Bool.not_eq_true, compareFlags_eq_iff, compareFlags_lt_iff,
    compareFlags_gt_iff]
  omega

/-- R220: the index of a pixel inside the buffer is one of the buffer's. -/
theorem pixelIndex_lt {cfg : Config} {x y : Word} (h : pixelInBounds cfg x y = true) :
    pixelIndex cfg x y < cfg.pixels := by
  simp only [pixelInBounds, decide_eq_true_eq] at h
  obtain ⟨hx0, hx, hy0, hy⟩ := h
  have hrow : sint y * cfg.displayW + sint x < (sint y + 1) * cfg.displayW := by linarith
  have hrows : (sint y + 1) * cfg.displayW ≤ cfg.displayH * cfg.displayW :=
    mul_le_mul_of_nonneg_right hy (Int.natCast_nonneg _)
  rw [pixelIndex, Int.toNat_lt (by positivity), Config.pixels, Nat.mul_comm, Nat.cast_mul]
  exact hrow.trans_le hrows

/-- An instruction decoded inside the image keeps the invariant. -/
theorem exec_keeps_inv {i : Instr} {s t : State} (h : s.Inv) (hrun : s.rstate = .running)
    (hi : s.pcAfter i ≤ s.img.length) (hexec : exec i s = .next t) : t.Inv := by
  have hready : s.rstate ≠ .ready := by simp [hrun]
  have hfaulted : s.rstate ≠ .faulted := by simp [hrun]
  cases i with
  | nop =>
    cases hexec
    exact h.past hi
  | mov d a | add d a b | sub d a b | mul d a b =>
    cases hexec
    exact (h.setReg d _).past hi
  | div d a b =>
    simp only [exec, execDiv] at hexec
    split at hexec <;> cases hexec
    · exact h.raise _
    · exact (h.setReg d _).past hi
  | cmp a b =>
    cases hexec
    exact (h.setFlags (compareFlags_atMostOne _ _)).past hi
  | jmp a | jeq a | jne a | jlt a | jgt a =>
    cases hexec
    exact h.jump hi a _
  | bra a | beq a | bne a | blt a | bgt a =>
    cases hexec
    exact h.branchLink hready hi a _
  | ret =>
    simp only [exec, execRet] at hexec
    split at hexec <;> cases hexec
    · rename_i v u hpop
      obtain ⟨hu, hv⟩ := h.pop hpop
      exact hu.setPc (hv.trans_lt hu.imageFits)
    · exact h.raise _
  | alc d n =>
    simp only [exec, execAlc] at hexec
    split at hexec
    · cases hexec
      exact h.raise _
    · rename_i hn
      split at hexec <;> cases hexec
      · rename_i p u halloc
        have hu := h.allocate hn halloc
        obtain ⟨-, rfl⟩ := allocate_eq_some.1 halloc
        exact (hu.setReg d _).past hi
      · exact h.raise _
  | fre p =>
    simp only [exec, execFre] at hexec
    split at hexec <;> cases hexec
    · rename_i u hfree
      have hu := h.free hfree
      obtain ⟨n, -, rfl⟩ := free_eq_some.1 hfree
      exact hu.past hi
    · exact h.raise _
  | stb p o v =>
    simp only [exec, execStb] at hexec
    split at hexec <;> cases hexec
    · rename_i hmarked
      exact (h.memWrite ((allocated_iff s _).1 hmarked).1 _).past hi
    · exact h.raise _
  | ldb d p o =>
    simp only [exec, execLdb] at hexec
    split at hexec <;> cases hexec
    · refine ((h.memRead _).setReg d _).past ?_
      obtain hm | hm := memRead_state s (effectiveAddress (s.value p) (s.value o)) <;>
        rw [hm] <;> exact hi
    · exact h.raise _
  | pix x y c =>
    simp only [exec, execPix] at hexec
    split at hexec <;> cases hexec
    · rename_i hbounds
      exact (h.setPixel s.abuf (pixelIndex_lt hbounds) _).past hi
    · exact h.raise _
  | cls c =>
    cases hexec
    exact (h.pixFill _).past hi
  | sys k =>
    simp only [exec, execSys] at hexec
    split at hexec
    · cases hexec
      exact h.raise _
    · split at hexec <;> cases hexec
      · exact (h.past hi).finishCall hfaulted _
      · exact h

/-- Settles O56: the halt, the decoder's fault and every instruction keep the invariant. -/
theorem everyStepKeepsTheInvariant : Obligations.EveryStepKeepsTheInvariant := by
  intro s t h hstep
  obtain ⟨hready, rfl⟩ | ⟨hrun, -⟩ := step_cases hstep
  · exact h.beginRun (by simp [hready])
  · obtain ⟨-, hnext⟩ | ⟨-, e, -, hnext⟩ | ⟨-, i, rest, hdec, hnext⟩ := step_running_cases hrun
    · cases hnext.symm.trans hstep
      exact h.halt (by simp [hrun])
    · cases hnext.symm.trans hstep
      exact h.raise _
    · exact exec_keeps_inv h hrun (pcAfter_le_of_decode hdec) (hnext.symm.trans hstep)

/-! ## The host's calls -/

/-- Settles O57: a call that gives a new state changes the table, or the image and `pc`, or the run
state. -/
theorem hostCallsKeepTheInvariant : Obligations.HostCallsKeepTheInvariant := by
  refine fun s t h => ⟨fun handler ht => ?_, fun bytes ht => ?_, fun ht => ?_⟩
  · obtain ⟨-, hroom, rfl⟩ := registerHandler_eq_next.1 ht
    exact
      { h with
        alloc := allocInv_congr (s := s) rfl rfl rfl h.alloc
        tableSize := by
          rw [List.length_append]
          exact hroom }
  · obtain ⟨hready, hfits, rfl⟩ := load_eq_next.1 ht
    have hempty := h.readyStackEmpty hready
    exact
      { h with
        alloc := allocInv_congr (s := s) rfl rfl rfl h.alloc
        imageFits := hfits
        pcFits := Nat.two_pow_pos _
        stackInImage := by simp [hempty]
        faultRecord := by simp [h.fault_eq_none, hready]
        readyStackEmpty := fun _ => hempty }
  · obtain ⟨hready, rfl⟩ := run_eq_next.1 ht
    exact h.beginRun (by simp [hready])

/-! ## Reset (70_reset_and_hazards.md R260) -/

theorem allocInv_create (cfg : Config) : AllocInv (State.create cfg) :=
  ⟨by simp [State.create, keyGet], by simp [State.create, keyGet], by simp [State.create, keyGet],
    rfl⟩

theorem pbuf_create (cfg : Config) (n : Fin 2) : (State.create cfg).pbuf[n.val] = [] :=
  Vector.getElem_replicate ..

theorem inv_create {cfg : Config} (hcfg : cfg.Valid) : (State.create cfg).Inv where
  cfgValid := hcfg
  imageFits := Nat.two_pow_pos _
  pcFits := Nat.two_pow_pos _
  stackDepth := Nat.zero_le _
  stackInImage := fun v hv => absurd hv List.not_mem_nil
  tableSize := Nat.zero_le _
  flagsOk := by simp [Flags.atMostOne, State.create]
  alloc := allocInv_create cfg
  arenaWf := rfl
  arenaBelow := rfl
  pixelsWf := fun n => by rw [pbuf_create]; rfl
  pixelsBelow := fun n => by rw [pbuf_create]; rfl
  faultRecord := by simp [State.create]
  readyStackEmpty := fun _ => rfl

/-- Settles O55: reset is `create()` with the default parameters, which are valid. -/
theorem resetMeetsTheInvariant : Obligations.ResetMeetsTheInvariant :=
  ⟨inv_create default_valid, fun _ hcfg => inv_create hcfg⟩

/-- Settles O53: `create()` sets each field to the value R260 gives it. -/
theorem createLeavesTheResetValues : Obligations.CreateLeavesTheResetValues := by
  refine ⟨rfl, fun cfg => ⟨fun r => Vector.getElem_replicate .., rfl, rfl,
    fun a => Nat.zero_testBit a, rfl, fun a => rfl, rfl, rfl, rfl, rfl, fun n i => ?_,
    rfl, rfl, rfl⟩⟩
  rw [State.pixel, pbuf_create]
  rfl

end Sys2Proof.Machine

/-! SUPPORT. MUL and DIV (42_alu.md R163, R164), and who writes the flags (R171). The product has
the same low half read as signed or unsigned, and truncation leaves a remainder of the dividend's
sign. -/

namespace Sys2Proof.Machine

/-! ## MUL -/

theorem exec_mul (d : RegIdx) (a b : Operand) (s : State) :
    exec (.mul d a b) s =
      .next (s.writeResult (.mul d a b) d (aluMul (s.value a) (s.value b))) := rfl

/-- The signed reading of a word differs from the unsigned one by a multiple of 2^16. -/
theorem sint_emod (v : Word) : sint v % 65536 = (uint v : Int) % 65536 := by
  rw [sint, uint, BitVec.toInt_eq_toNat_bmod]
  exact Int.bmod_emod

theorem uint_aluMul (a b : Word) : uint (aluMul a b) = uint a * uint b % 65536 := by
  have h : (uint (aluMul a b) : Int) = ((uint a : Int) * uint b) % 65536 := uint_wrap16 _
  exact_mod_cast h

theorem uint_aluMul_signed (a b : Word) :
    (uint (aluMul a b) : Int) = sint a * sint b % 65536 := by
  have h : (uint (aluMul a b) : Int) = ((uint a : Int) * uint b) % 65536 := uint_wrap16 _
  rw [h, Int.mul_emod, ← sint_emod, ← sint_emod, ← Int.mul_emod]

/-- Settles O28: MUL writes the wrapped product, whose two readings are `uint_aluMul` and
`uint_aluMul_signed`. -/
theorem mulKeepsLowHalf : Obligations.MulKeepsLowHalf := fun s d a b =>
  ⟨layout_dest_two_sources rfl rfl, writesRegister_of_exec (exec_mul d a b s)
    ⟨uint_aluMul _ _, uint_aluMul_signed _ _⟩⟩

/-! ## DIV -/

theorem exec_div_of_zero {d : RegIdx} {a b : Operand} {s : State} (h : uint (s.value b) = 0) :
    exec (.div d a b) s = .next (s.raise .divisionByZero s.pc) := if_pos h

theorem exec_div_of_ne_zero {d : RegIdx} {a b : Operand} {s : State} (h : uint (s.value b) ≠ 0) :
    exec (.div d a b) s =
      .next (s.writeResult (.div d a b) d (aluDiv s.cfg (s.value a) (s.value b))) := if_neg h

theorem sint_eq_zero_iff (v : Word) : sint v = 0 ↔ uint v = 0 := by
  have hbounds := sint_bounds v
  have hmod := sint_emod v
  have hlt : uint v < 65536 := v.isLt
  omega

/-- R164: away from the corner -32768 / -1 the quotient fits, so it is the truncated one. -/
theorem sint_aluDiv {cfg : Config} {a b : Word} (h : ¬(sint a = -32768 ∧ sint b = -1)) :
    sint (aluDiv cfg a b) = Int.tdiv (sint a) (sint b) := by
  have hfits : a ≠ BitVec.intMin 16 ∨ b ≠ -1#16 := by
    by_contra hcorner
    obtain ⟨rfl, rfl⟩ : a = BitVec.intMin 16 ∧ b = -1#16 := by simpa using hcorner
    exact h (by decide)
  rw [aluDiv, if_neg h, wrap16, sint, sint, sint, ← BitVec.toInt_sdiv_of_ne_or_ne a b hfits,
    BitVec.ofInt_toInt]

/-- R164: the remainder of truncation is shorter than the divisor and of the dividend's sign. -/
theorem tdiv_remainder {x y : Int} (hy : y ≠ 0) : ∃ r, x = Int.tdiv x y * y + r ∧
    r.natAbs < y.natAbs ∧ 0 ≤ r * x := by
  refine ⟨Int.tmod x y, ?_, ?_, ?_⟩
  · rw [Int.mul_comm, Int.mul_tdiv_add_tmod]
  · rw [Int.natAbs_tmod]
    exact Nat.mod_lt _ (Int.natAbs_pos.2 hy)
  · obtain hx | hx := Int.le_total 0 x
    · exact mul_nonneg (Int.tmod_nonneg y hx) hx
    · have hneg := Int.tmod_nonneg y (Int.neg_nonneg_of_nonpos hx)
      rw [Int.neg_tmod] at hneg
      exact mul_nonneg_of_nonpos_of_nonpos (Int.nonpos_of_neg_nonneg hneg) hx

/-- Settles O29: the three cases of `aluDiv` and of the divisor. -/
theorem divTruncatesTowardZero : Obligations.DivTruncatesTowardZero := by
  refine fun s d a b => ⟨layout_dest_two_sources rfl rfl, fun hzero => ?_,
    fun hb hmin hneg => ?_, fun hb hcorner => ?_⟩
  · exact ⟨_, exec_div_of_zero hzero, faultTaken_raise _ s⟩
  · exact writesRegister_of_exec (exec_div_of_ne_zero hb) (if_pos ⟨hmin, hneg⟩)
  · refine writesRegister_of_exec (exec_div_of_ne_zero hb) ?_
    rw [sint_aluDiv hcorner]
    exact tdiv_remainder ((sint_eq_zero_iff _).not.2 hb)

/-! ## The flags -/

/-- R171: a comparison sets exactly one flag, since the signed order is total. -/
theorem compareFlags_exactlyOne (a b : Word) : (compareFlags a b).eq.toNat +
    (compareFlags a b).lt.toNat + (compareFlags a b).gt.toNat = 1 := by
  obtain h | h | h := lt_trichotomy (sint a) (sint b)
  · simp [compareFlags, h, h.ne, h.not_gt]
  · simp [compareFlags, h]
  · simp [compareFlags, h, h.ne', h.not_gt]

/-- Settles O31: a fault and the effect of an instruction other than CMP leave the flags. -/
theorem onlyCmpChangesFlags : Obligations.OnlyCmpChangesFlags := by
  refine fun i s t ht => ⟨fun hcmp => ?_, ?_⟩
  · obtain ⟨k, -, rfl⟩ | heffect := exec_cases ht
    · rfl
    · by_contra hflags
      have hm := heffect.flags hflags
      cases i with
      | cmp a b => exact hcmp a b rfl
      | _ => cases hm
  · rintro a b rfl
    cases ht
    exact compareFlags_exactlyOne _ _

end Sys2Proof.Machine

/-! SUPPORT. Control transfer (43_control.md): a jump and the link rule, each said once for every
instruction that uses it, and a return that undoes what a branch-and-link did to the call stack. -/

namespace Sys2Proof.Machine

/-! ## Layouts and frames -/

/-- R83: without a destination, one source follows the opcode. -/
theorem layout_one_source {i : Instr} {a : Operand} (hdest : i.dest? = none)
    (hsources : i.sources = [a]) : Layout i i.mnemonic (fun c => a.bytes c) :=
  ⟨rfl, fun c => by simp [encode, hdest, hsources]⟩

/-- A write of `pc` changes no other part of the state. -/
theorem setPc_frame (s : State) (a : Nat) : UnchangedExcept [.pc] s (s.setPc a) := by
  constructor
  case arena => exact fun _ _ => rfl
  case pixels => exact fun _ _ _ => rfl
  all_goals simp

/-- A new call stack changes no other part of the state. -/
theorem withStack_frame (s : State) (cs : List Nat) :
    UnchangedExcept [.cs] s { s with cs := cs } := by
  constructor
  case cs => simp
  all_goals intros; rfl

/-- A frame holds with more parts, in any order. -/
theorem UnchangedExcept.mono {ps qs : List Part} {s t : State} (h : UnchangedExcept ps s t)
    (hsub : ps ⊆ qs) : UnchangedExcept qs s t :=
  { cfg := h.cfg
    img := h.img
    handlers := h.handlers
    regs := fun hp => h.regs (mt (@hsub _) hp)
    pc := fun hp => h.pc (mt (@hsub _) hp)
    flags := fun hp => h.flags (mt (@hsub _) hp)
    cs := fun hp => h.cs (mt (@hsub _) hp)
    amap := fun hp => h.amap (mt (@hsub _) hp)
    stab := fun hp => h.stab (mt (@hsub _) hp)
    arena := fun hp => h.arena (mt (@hsub _) hp)
    pixels := fun hp => h.pixels (mt (@hsub _) hp)
    abuf := fun hp => h.abuf (mt (@hsub _) hp)
    rstate := fun hp => h.rstate (mt (@hsub _) hp)
    fault := fun hp => h.fault (mt (@hsub _) hp)
    draws := fun hp => h.draws (mt (@hsub _) hp)
    calls := fun hp => h.calls (mt (@hsub _) hp) }

/-- A new `pc` and a new call stack change no other part of the state. -/
theorem setPc_withStack_frame (s : State) (a : Nat) (cs : List Nat) :
    UnchangedExcept [.pc, .cs] s (State.setPc a { s with cs := cs }) :=
  ((withStack_frame s cs).trans (setPc_frame _ a)).mono (by simp)

/-- Moved past an instruction, `pc` is the address of the next one in sequence, if no other update
wrote it. -/
theorem pc_past_of_pc_eq {s u : State} (h : u.pc = s.pc) (i : Instr) :
    (u.past i).pc = nextAddress i s := by
  rw [nextAddress_eq, past_pc, h, State.pcAfter]

/-! ## Jumps (R180-R184) -/

/-- An instruction that is `State.jump` jumps exactly when its condition holds. -/
theorem jumpsWhen_of_exec {i : Instr} {a : Operand} {b : Bool} {taken : Prop} {s : State}
    (hexec : exec i s = .next (s.jump i a b)) (hb : b = true ↔ taken) :
    JumpsWhen i a taken s := by
  refine ⟨s.jump i a b, hexec, fun htaken => ?_, fun hnot => ?_, ?_⟩
  · rw [State.jump, if_pos (hb.2 htaken), setPc_pc]
  · rw [State.jump, if_neg (mt hb.1 hnot), pc_past_of_pc_eq rfl]
  · unfold State.jump
    split
    · exact setPc_frame s _
    · exact past_frame s i

/-- Settles O32: JMP is the jump that is always taken. -/
theorem jmpSetsPc : Obligations.JmpSetsPc := fun s a =>
  ⟨layout_one_source rfl rfl, jumpsWhen_of_exec (b := true) rfl (by simp)⟩

/-- Settles O33: each jump's condition is that of R26. -/
theorem conditionalJumpsFollowFlags : Obligations.ConditionalJumpsFollowFlags := fun s a =>
  ⟨⟨layout_one_source rfl rfl, jumpsWhen_of_exec (b := s.flags.condEq) rfl Iff.rfl⟩,
    ⟨layout_one_source rfl rfl,
      jumpsWhen_of_exec (b := s.flags.condNe) rfl (by simp [Flags.condNe])⟩,
    ⟨layout_one_source rfl rfl, jumpsWhen_of_exec (b := s.flags.condLt) rfl Iff.rfl⟩,
    ⟨layout_one_source rfl rfl, jumpsWhen_of_exec (b := s.flags.condGt) rfl Iff.rfl⟩⟩

/-! ## Branch-and-link (R185-R190) -/

section Link

variable {i : Instr} {a : Operand} {s : State}

/-- R185, taken with room: the address after the branch is pushed and `pc` is the target. -/
theorem branchLink_of_room (h : s.cs.length ≠ callDepth) : s.branchLink i a true =
    State.setPc (uint (s.value a)) { s with cs := s.cs ++ [s.pcAfter i] } := by
  have hpush : s.push (s.pcAfter i) = some { s with cs := s.cs ++ [s.pcAfter i] } :=
    push_eq_some.2 ⟨h, rfl⟩
  rw [State.branchLink, if_pos rfl, hpush]

/-- R185, taken with a full stack. -/
theorem branchLink_of_full (h : s.cs.length = callDepth) :
    s.branchLink i a true = s.raise .callStackOverflow s.pc := by
  rw [State.branchLink, if_pos rfl, push_eq_none.2 h]

/-- An instruction that is `State.branchLink` follows the link rule by its condition. -/
theorem linksWhen_of_exec {b : Bool} {taken : Prop} (hexec : exec i s = .next (s.branchLink i a b))
    (hb : b = true ↔ taken) : LinksWhen i a taken s := by
  refine ⟨fun htaken hroom => ?_, fun htaken hfull => ?_, fun hnot => ?_⟩
  · obtain rfl : b = true := hb.2 htaken
    rw [branchLink_of_room (Nat.ne_of_lt hroom)] at hexec
    refine ⟨_, hexec, ?_, rfl, setPc_withStack_frame s _ _⟩
    rw [nextAddress_eq, setPc_cs]
  · obtain rfl : b = true := hb.2 htaken
    rw [branchLink_of_full hfull] at hexec
    exact ⟨_, hexec, faultTaken_raise _ s⟩
  · obtain rfl : b = false := by rwa [← hb, Bool.not_eq_true] at hnot
    refine ⟨_, hexec, ?_, past_frame s i⟩
    exact pc_past_of_pc_eq rfl _

/-- A branch-and-link that changed the call stack pushed the address after it. -/
theorem branchLink_of_cs_ne {b : Bool} (h : (s.branchLink i a b).cs ≠ s.cs) : s.branchLink i a b =
    State.setPc (uint (s.value a)) { s with cs := s.cs ++ [s.pcAfter i] } := by
  cases b with
  | false => exact absurd rfl h
  | true =>
    refine branchLink_of_room fun hfull => h ?_
    rw [branchLink_of_full hfull, raise_cs]

end Link

/-- Settles O34: BRA is the branch that is always taken. -/
theorem braPushesAndJumps : Obligations.BraPushesAndJumps := fun s a =>
  ⟨layout_one_source rfl rfl, linksWhen_of_exec (b := true) rfl (by simp)⟩

/-- Settles O35: each branch's condition is that of R26. -/
theorem conditionalBranchesLink : Obligations.ConditionalBranchesLink := fun s a =>
  ⟨⟨layout_one_source rfl rfl, linksWhen_of_exec (b := s.flags.condEq) rfl Iff.rfl⟩,
    ⟨layout_one_source rfl rfl,
      linksWhen_of_exec (b := s.flags.condNe) rfl (by simp [Flags.condNe])⟩,
    ⟨layout_one_source rfl rfl, linksWhen_of_exec (b := s.flags.condLt) rfl Iff.rfl⟩,
    ⟨layout_one_source rfl rfl, linksWhen_of_exec (b := s.flags.condGt) rfl Iff.rfl⟩⟩

/-! ## RET (R192, R193) -/

theorem layout_ret : Layout .ret .ret (fun _ => []) := ⟨rfl, fun _ => rfl⟩

/-- R192: RET takes the last entry off the stack into `pc`. -/
theorem exec_ret_of_append {s : State} {below : List Nat} {v : Nat} (h : s.cs = below ++ [v]) :
    exec .ret s = .next (State.setPc v { s with cs := below }) := by
  have hpop : s.pop = some (v, { s with cs := below }) :=
    pop_eq_some.2 ⟨by simp [h], by simp [h]⟩
  rw [exec, execRet, hpop]

theorem exec_ret_of_empty {s : State} (h : s.cs = []) :
    exec .ret s = .next (s.raise .callStackUnderflow s.pc) := by
  rw [exec, execRet, pop_eq_none.2 h]

/-- Settles O36: a stack is empty or has a last entry, and RET has an equation for each. -/
theorem retPopsTheStack : Obligations.RetPopsTheStack := fun s =>
  ⟨layout_ret,
    fun below v h => ⟨_, exec_ret_of_append h, rfl, rfl, setPc_withStack_frame s v below⟩,
    fun h => ⟨_, exec_ret_of_empty h, faultTaken_raise _ s⟩⟩

/-- Each of the five branch-and-links is the link rule with some condition. -/
theorem exec_branch {i : Instr} {a : Operand}
    (hi : i ∈ [Instr.bra a, .beq a, .bne a, .blt a, .bgt a]) (s : State) :
    ∃ b, exec i s = .next (s.branchLink i a b) := by
  simp only [List.mem_cons, List.not_mem_nil, or_false] at hi
  obtain rfl | rfl | rfl | rfl | rfl := hi <;> exact ⟨_, rfl⟩

/-- Settles O37: RET pops what the branch pushed. -/
theorem returnResumesAfterTheBranch : Obligations.ReturnResumesAfterTheBranch := by
  intro s t u i a hi hexec hcs hu
  obtain ⟨b, hbranch⟩ := exec_branch hi s
  cases hbranch.symm.trans hexec
  rw [branchLink_of_cs_ne hcs] at hu ⊢
  refine ⟨fun r => rfl, rfl, _, exec_ret_of_append hu, ?_, rfl, setPc_withStack_frame u _ _⟩
  rw [length_encode]
  rfl

end Sys2Proof.Machine

/-! SUPPORT. SYS (41_system.md R141, R142): the three ways it goes, what a reply leaves behind, and
which instruction may write which part of the state. -/

namespace Sys2Proof.Machine

/-! ## The three ways SYS goes -/

section Sys

variable {s : State} {k : Operand} {h : Handler}

theorem exec_sys_of_no_handler (hnone : s.handlers[uint (s.value k)]? = none) :
    exec (.sys k) s = .next (s.raise .noHandler s.pc) := by
  simp only [exec, execSys, hnone]

theorem exec_sys_of_returns {r : HandlerReply} (hsome : s.handlers[uint (s.value k)]? = some h)
    (hans : (s.past (.sys k)).handlerAnswer (uint (s.value k)) h = .returns r) :
    exec (.sys k) s = .next ((s.past (.sys k)).finishCall r) := by
  simp only [exec, execSys, hsome, hans]

theorem exec_sys_of_never (hsome : s.handlers[uint (s.value k)]? = some h)
    (hans : (s.past (.sys k)).handlerAnswer (uint (s.value k)) h = .never) :
    exec (.sys k) s = .next s := by
  simp only [exec, execSys, hsome, hans]

end Sys

/-- Settles O20: no handler stands at or past `NH`. -/
theorem sysWithoutHandlerFaults : Obligations.SysWithoutHandlerFaults := fun s _ hge =>
  ⟨_, exec_sys_of_no_handler (List.getElem?_eq_none hge), faultTaken_raise _ s⟩

/-- Settles O23: the step of a handler that never returns changes nothing. -/
theorem handlerThatNeverReturnsHangs : Obligations.HandlerThatNeverReturnsHangs :=
  fun _ _ _ _ hrun hdec hsome hans =>
    runs_for_ever ((step_of_decode hrun hdec).trans (exec_sys_of_never hsome hans))

/-! ## What a reply leaves behind -/

/-- A handler that returned changed no part but those R142 names. -/
theorem finishCall_frame (r : HandlerReply) (s : State) :
    UnchangedExcept [.regs, .arena, .pixels, .abuf, .run, .calls] s (s.finishCall r) := by
  obtain ⟨hframe, -⟩ := applyReply_frame r s
  simp only [handlerFrame, Prod.mk.injEq] at hframe
  obtain ⟨⟨hcfg, hpc, hflags, hcs, hamap, hstab⟩, himg, hhandlers, -, -, hdraws⟩ := hframe
  rw [finishCall_eq]
  exact
    { cfg := hcfg
      img := himg
      handlers := hhandlers
      regs := by simp
      pc := fun _ => hpc
      flags := fun _ => hflags
      cs := fun _ => hcs
      amap := fun _ => hamap
      stab := fun _ => hstab
      arena := by simp
      pixels := by simp
      abuf := by simp
      rstate := by simp
      fault := by simp
      draws := fun _ => hdraws
      calls := by simp }

theorem fault_finishCall (r : HandlerReply) (s : State) : (s.finishCall r).fault = s.fault := by
  obtain ⟨hframe, -⟩ := applyReply_frame r s
  simp only [handlerFrame, Prod.mk.injEq] at hframe
  obtain ⟨-, -, -, -, hfault, -⟩ := hframe
  rw [finishCall_eq]
  exact hfault

theorem arenaByte_finishCall_of_ge (r : HandlerReply) {s : State} {a : Nat}
    (ha : s.cfg.arenaSize ≤ a) : (s.finishCall r).arenaByte a = s.arenaByte a := by
  obtain ⟨-, harena, -⟩ := applyReply_reads r s
  rw [finishCall_eq]
  exact (harena a).trans (if_neg (Nat.not_lt.2 ha))

/-- SYS whose handler returned: `pc` is moved on, and then the handler writes. -/
theorem sys_frame (k : Operand) (r : HandlerReply) (s : State) :
    UnchangedExcept [.regs, .pc, .arena, .pixels, .abuf, .run, .calls] s
      ((s.past (.sys k)).finishCall r) :=
  ((past_frame s (.sys k)).trans (finishCall_frame r _)).mono (by simp)

theorem pc_sys (k : Operand) (r : HandlerReply) (s : State) :
    ((s.past (.sys k)).finishCall r).pc = nextAddress (.sys k) s := by
  rw [(finishCall_frame r _).pc (by simp), pc_past_of_pc_eq rfl]

/-- Settles O21: `applyReply_reads`, to which `finishCall` only adds the run state. -/
theorem sysAppliesTheHandlersWrites : Obligations.SysAppliesTheHandlersWrites := by
  refine fun s k h => ⟨layout_one_source rfl rfl, fun a hlisted => handlerAnswer_listed hlisted,
    fun r hsome hans => ⟨_, exec_sys_of_returns hsome hans, ?_⟩⟩
  obtain ⟨hreg, harena, hpixel, habuf⟩ := applyReply_reads r (s.past (.sys k))
  obtain ⟨-, hcalls⟩ := applyReply_frame r (s.past (.sys k))
  refine ⟨?reg, ?arena, fun a ha => arenaByte_finishCall_of_ge r ha, ?pixel, ?pixelOutside, ?abuf,
    pc_sys k r s, ?rstate, fault_finishCall r _, ?calls, sys_frame k r s⟩
  all_goals rw [finishCall_eq]
  case reg => exact hreg
  case arena => exact fun a ha => (harena a).trans (if_pos ha)
  case pixel => exact fun n i hi => (hpixel n i).trans (if_pos hi)
  case pixelOutside => exact fun n i hi => (hpixel n i).trans (if_neg (Nat.not_lt.2 hi))
  case abuf => exact habuf
  case rstate => rfl
  case calls => exact hcalls

theorem UnchangedExcept.refl (ps : List Part) (s : State) : UnchangedExcept ps s s := by
  constructor <;> intros <;> rfl

/-- Settles O22: the handler returned, or the state is the same. -/
theorem handlerWritesOnlyWhatItMay : Obligations.HandlerWritesOnlyWhatItMay := by
  intro s k t hlt hexec
  have hsome := List.getElem?_eq_getElem hlt
  cases hans : (s.past (.sys k)).handlerAnswer (uint (s.value k)) s.handlers[uint (s.value k)] with
  | returns r =>
    cases (exec_sys_of_returns hsome hans).symm.trans hexec
    exact ⟨fault_finishCall r _, fun a ha => arenaByte_finishCall_of_ge r ha, .inr (pc_sys k r s),
      sys_frame k r s⟩
  | never =>
    cases (exec_sys_of_never hsome hans).symm.trans hexec
    exact ⟨rfl, fun _ _ => rfl, .inl rfl, .refl _ _⟩

/-! ## Who writes what -/

/-- Settles O51: a fault writes none of these parts, and an effect names the writers of each. -/
theorem eachPartHasItsWriters : Obligations.EachPartHasItsWriters := by
  intro i s t hexec
  obtain ⟨k, -, rfl⟩ | heffect := exec_cases hexec
  · refine ⟨fun _ h => absurd rfl h, fun h => absurd rfl h, fun h => ?_, fun _ h => absurd rfl h,
      fun _ _ h => absurd rfl h, fun h => absurd rfl h, fun h => absurd rfl h⟩
    exact h.elim (absurd rfl) (absurd rfl)
  · exact ⟨heffect.regs, heffect.cs, heffect.allocator,
      fun a h => heffect.arena fun heq => h (by rw [State.arenaByte, heq]; rfl),
      fun n j h => heffect.pixels fun heq => h (by simp only [State.pixel, heq]),
      heffect.abuf, heffect.draws⟩

end Sys2Proof.Machine

/-! SUPPORT. ALC, FRE, STB and LDB (44_memory_ops.md): an equation for each way each of them goes,
and what a block taken or given back does to the map and the table. -/

namespace Sys2Proof.Machine

/-! ## Blocks -/

/-- The state with `n` bytes from `p` on marked and recorded as a block (20_memory.md R60). -/
def State.takeBlock (p n : Nat) (s : State) : State :=
  { s with amap := markRun s.amap p n, stab := keySet s.stab p n }

/-- The state with `n` bytes from `p` on unmarked and the record at `p` removed (R61). -/
def State.dropBlock (p n : Nat) (s : State) : State :=
  { s with amap := clearRun s.amap p n, stab := keyErase s.stab p }

theorem allocate_of_fit {s : State} {n p : Nat}
    (h : firstFit s.cfg.arenaSize s.amap n = some p) : s.allocate n = some (p, s.takeBlock p n) :=
  allocate_eq_some.2 ⟨h, rfl⟩

theorem free_of_live {s : State} {n p : Nat} (h : keyGet s.stab p = some n) :
    s.free p = some (s.dropBlock p n) :=
  free_eq_some.2 ⟨n, h, rfl⟩

/-- A new map and table change no other part of the state. -/
theorem withAllocator_frame (s : State) (amap : Nat) (stab : SizeTable) :
    UnchangedExcept [.allocator] s { s with amap := amap, stab := stab } := by
  constructor
  case amap | stab => simp
  all_goals intros; rfl

/-- Marked after a block is taken: the bytes marked before, and the block's. -/
theorem testBit_takeBlock (s : State) (p n a : Nat) : (s.takeBlock p n).amap.testBit a = true ↔
    s.amap.testBit a = true ∨ (p ≤ a ∧ a < p + n) := by
  simp [State.takeBlock, testBit_markRun]

/-- Marked after a block is given back: the bytes marked before, but for the block's. -/
theorem testBit_dropBlock (s : State) (p n a : Nat) : (s.dropBlock p n).amap.testBit a = true ↔
    s.amap.testBit a = true ∧ ¬(p ≤ a ∧ a < p + n) := by
  simp only [State.dropBlock, testBit_clearRun, Bool.and_eq_true, Bool.not_eq_true',
    Bool.and_eq_false_iff, decide_eq_false_iff_not, not_and_or]

/-- The bytes of a live block are a free run once it is given back. -/
theorem freeRun_dropBlock {s : State} {p n : Nat} (h : AllocInv s)
    (hlive : keyGet s.stab p = some n) : FreeRun (s.dropBlock p n) p n :=
  ⟨(h.inside p n hlive).2, fun a hlow hhigh => by
    rw [← Bool.not_eq_true, testBit_dropBlock]
    exact fun hmarked => hmarked.2 ⟨hlow, hhigh⟩⟩

/-- A block taken from free bytes and given back at once leaves the map as it was. -/
theorem clearRun_markRun {m p n : Nat} (h : runFree m p n = true) :
    clearRun (markRun m p n) p n = m := by
  refine Nat.eq_of_testBit_eq fun a => ?_
  rw [testBit_clearRun, testBit_markRun]
  by_cases hin : p ≤ a ∧ a < p + n
  · simp [hin, (runFree_iff m p n).1 h a hin.1 hin.2]
  · simp [← Bool.decide_and, hin]

/-- A record entered at a new key and removed at once leaves the table as it was. -/
theorem keyErase_keySet {β : Type} {l : List (Nat × β)} {k : Nat} {v : β}
    (hl : keysFrom 0 l = true) (hk : keyGet l k = none) : keyErase (keySet l k v) k = l := by
  have hset := keysFrom_keySet (v := v) hl (Nat.zero_le k)
  refine keys_ext (keysFrom_keyErase hset) hl fun k' => ?_
  rw [keyGet_keyErase hset, keyGet_keySet]
  by_cases hkk : k' = k <;> simp [hkk, hk]

/-- A free run that is not empty starts at an address a register can hold. -/
theorem uint_wrap16_of_freeRun {s : State} {p n : Nat} (h : FreeRun s p n)
    (hcfg : s.cfg.Valid) (hn : n ≠ 0) : uint (wrap16 p) = p := by
  obtain ⟨-, -, ⟨-, hsize⟩, -⟩ := hcfg
  have hinside := h.1
  exact uint_wrap16_ofNat (by omega)

/-- R60: the scan finds nothing when no run is free. -/
theorem firstFit_eq_none {s : State} {n : Nat} (h : ¬∃ p, FreeRun s p n) :
    firstFit s.cfg.arenaSize s.amap n = none := by
  rw [Option.eq_none_iff_forall_ne_some]
  exact fun p hp => h ⟨p, (firstFit_freeRun hp).1⟩

/-! ## ALC (R200) -/

section Alc

variable {s : State} {d : RegIdx} {m : Operand} {n p : Nat}

theorem exec_alc_of_zero (hsize : uint (s.value m) = 0) :
    exec (.alc d m) s = .next (s.raise .badAllocSize s.pc) := if_pos hsize

theorem exec_alc_of_fit (hsize : uint (s.value m) = n) (hn : n ≠ 0)
    (hfit : firstFit s.cfg.arenaSize s.amap n = some p) :
    exec (.alc d m) s = .next (((s.takeBlock p n).setReg d (wrap16 p)).past (.alc d m)) := by
  simp only [exec, execAlc, hsize, if_neg hn, allocate_of_fit hfit]

theorem exec_alc_of_no_fit (hsize : uint (s.value m) = n) (hn : n ≠ 0)
    (hnone : ¬∃ p, FreeRun s p n) :
    exec (.alc d m) s = .next (s.raise .outOfMemory s.pc) := by
  simp only [exec, execAlc, hsize, if_neg hn, allocate_eq_none.2 (firstFit_eq_none hnone)]

end Alc

/-- Settles O38: the scan's answer is the lowest free run, and the block is taken there. -/
theorem alcReturnsLowestFit : Obligations.AlcReturnsLowestFit := by
  refine fun s d n => ⟨layout_dest_one_source rfl rfl, fun hcfg hn hexists => ?_⟩
  obtain ⟨p, hfit⟩ := firstFit_isSome hexists
  obtain ⟨hfree, hlowest⟩ := firstFit_freeRun hfit
  refine ⟨p, _, hfree, hlowest, exec_alc_of_fit rfl hn hfit, ?_, fun r hr => ?_,
    testBit_takeBlock s p _, fun q => keyGet_keySet s.stab p q _, ?_, ?_⟩
  · rw [reg_past, reg_setReg_self, uint_wrap16_of_freeRun hfree hcfg hn]
  · rw [reg_past, reg_setReg_ne _ hr]
    rfl
  · exact pc_past_of_pc_eq rfl _
  · exact (((withAllocator_frame s _ _).trans (setReg_frame _ d _)).trans
      (past_frame _ (.alc d n))).mono (by simp)

/-- Settles O39: each fault has its equation. -/
theorem alcFaults : Obligations.AlcFaults := fun s _ _ =>
  ⟨fun hzero => ⟨_, exec_alc_of_zero hzero, faultTaken_raise _ s⟩,
    fun hn hnone => ⟨_, exec_alc_of_no_fit rfl hn hnone, faultTaken_raise _ s⟩⟩

/-! ## FRE (R202) -/

section Fre

variable {s : State} {a : Operand} {p n : Nat}

theorem exec_fre_of_live (hptr : uint (s.value a) = p) (hlive : keyGet s.stab p = some n) :
    exec (.fre a) s = .next ((s.dropBlock p n).past (.fre a)) := by
  simp only [exec, execFre, hptr, free_of_live hlive]

theorem exec_fre_of_none (hptr : uint (s.value a) = p) (hnone : keyGet s.stab p = none) :
    exec (.fre a) s = .next (s.raise .invalidFree s.pc) := by
  simp only [exec, execFre, hptr, free_eq_none.2 hnone]

end Fre

/-- Settles O40: the block is given back, or there is no record at the pointer. -/
theorem freReleasesALiveBlock : Obligations.FreReleasesALiveBlock := by
  refine fun s p => ⟨layout_one_source rfl rfl, fun n h hlive => ?_, fun hnone => ?_⟩
  · refine ⟨_, exec_fre_of_live rfl hlive, testBit_dropBlock s _ n,
      fun q => keyGet_keyErase h.sorted _ q, ?_,
      ((withAllocator_frame s _ _).trans (past_frame _ (.fre p))).mono (by simp)⟩
    exact pc_past_of_pc_eq rfl _
  · exact ⟨_, exec_fre_of_none rfl hnone, faultTaken_raise _ s⟩

/-! ## ALC after FRE, and FRE after ALC -/

/-- Settles O42: the freed block is a free run of that size, and the scan answers the lowest one. -/
theorem freedBlockCanBeAllocatedAgain : Obligations.FreedBlockCanBeAllocatedAgain := by
  intro s t p n hcfg h hlive hexec e m hsize
  cases (exec_fre_of_live rfl hlive).symm.trans hexec
  have hn : n ≠ 0 := Nat.one_le_iff_ne_zero.1 (h.inside _ n hlive).1
  have hfreed : FreeRun ((s.dropBlock (uint (s.value p)) n).past (.fre p)) (uint (s.value p)) n :=
    freeRun_dropBlock h hlive
  obtain ⟨q, hfit⟩ := firstFit_isSome ⟨_, hfreed⟩
  obtain ⟨hfree, hlowest⟩ := firstFit_freeRun hfit
  refine ⟨_, exec_alc_of_fit hsize hn hfit, rfl, rfl, ?_⟩
  rw [reg_past, reg_setReg_self, uint_wrap16_of_freeRun hfree hcfg hn]
  exact hlowest _ hfreed

/-- Settles O43: FRE undoes the block that ALC took, so the scan sees the same map again. -/
theorem allocateFreeAllocateRepeats : Obligations.AllocateFreeAllocateRepeats := by
  intro s t d n hcfg h _ hexec hcompletes
  obtain ⟨k, rfl⟩ | ⟨hn, p, hfit, rfl⟩ := execAlc_cases hexec
  · exact absurd (raise_rstate s k s.pc) hcompletes
  obtain ⟨hfree, -⟩ := firstFit_freeRun hfit
  have hptr : uint (((s.takeBlock p (uint (s.value n))).setReg d (wrap16 p)).reg d) = p := by
    rw [reg_setReg_self, uint_wrap16_of_freeRun hfree hcfg hn]
  have hlive : keyGet (s.takeBlock p (uint (s.value n))).stab p = some (uint (s.value n)) := by
    rw [State.takeBlock, keyGet_keySet, if_pos rfl]
  have hmap : clearRun (markRun s.amap p (uint (s.value n))) p (uint (s.value n)) = s.amap :=
    clearRun_markRun (freeRun_iff.1 hfree).2
  refine ⟨_, exec_fre_of_live hptr hlive, hmap,
    keyErase_keySet h.sorted (keyGet_freeRun h hfree hn), fun e m hsize => ?_⟩
  refine ⟨_, exec_alc_of_fit (p := p) hsize hn ?_, ?_⟩
  · exact (congrArg (firstFit s.cfg.arenaSize · _) hmap).trans hfit
  · rw [reg_past, reg_setReg_self]
    exact (reg_setReg_self _ d _).symm

/-! ## The effective address (20_memory.md R57) -/

/-- Settles O44: the sum wraps, and the signed offset differs from the unsigned one by a multiple of
2^16. -/
theorem effectiveAddressWraps : Obligations.EffectiveAddressWraps := by
  intro s p o
  have hsum : effectiveAddress p o = (uint p + uint o) % 65536 := by
    rw [effectiveAddress_eq, BitVec.toNat_add]
    rfl
  have hsigned := sint_emod o
  exact ⟨hsum, fun hlow hhigh => by omega, allocated_iff s _⟩

/-! ## STB (R204) -/

/-- R83: without a destination, three sources follow the opcode in order. -/
theorem layout_three_sources {i : Instr} {a b c : Operand} (hdest : i.dest? = none)
    (hsources : i.sources = [a, b, c]) :
    Layout i i.mnemonic (fun g => a.bytes g ++ b.bytes g ++ c.bytes g) :=
  ⟨rfl, fun g => by simp [encode, hdest, hsources]⟩

section Stb

variable {s : State} {p o v : Operand}

theorem exec_stb_of_allocated
    (h : s.allocated (effectiveAddress (s.value p) (s.value o)) = true) : exec (.stb p o v) s =
      .next ((s.memWrite (effectiveAddress (s.value p) (s.value o)) (trunc8 (s.value v))).past
        (.stb p o v)) := if_pos h

theorem exec_stb_of_not_allocated
    (h : s.allocated (effectiveAddress (s.value p) (s.value o)) = false) :
    exec (.stb p o v) s = .next (s.raise .memoryNotAllocated s.pc) :=
  if_neg (Bool.not_eq_true _ ▸ h)

end Stb

theorem memWrite_frame (s : State) (a : Nat) (b : Byte) :
    UnchangedExcept [.arena] s (s.memWrite a b) := by
  constructor
  case arena => simp
  all_goals intros; rfl

/-- Settles O45: one byte is written, at the effective address. -/
theorem stbStoresOneAllocatedByte : Obligations.StbStoresOneAllocatedByte := by
  refine fun s p o v => ⟨layout_three_sources rfl rfl, fun hmarked => ?_, fun hclear => ?_⟩
  · refine ⟨_, exec_stb_of_allocated hmarked, ⟨trunc8 (s.value v), toNat_trunc8 _, ?_⟩,
      fun a ha => ?_, ?_, ((memWrite_frame s _ _).trans (past_frame _ (.stb p o v))).mono (by simp)⟩
    · exact (arenaByte_memWrite s _ _ _).trans (if_pos rfl)
    · exact (arenaByte_memWrite s _ a _).trans (if_neg ha)
    · exact pc_past_of_pc_eq rfl _
  · exact ⟨_, exec_stb_of_not_allocated hclear, faultTaken_raise _ s⟩

/-! ## LDB (R206) -/

section Ldb

variable {s : State} {d : RegIdx} {p o : Operand}

/-- R206, 20_memory.md R55: a byte that was written is loaded. -/
theorem exec_ldb_of_written {b : Byte}
    (h : s.allocated (effectiveAddress (s.value p) (s.value o)) = true)
    (hb : s.arenaByte (effectiveAddress (s.value p) (s.value o)) = some b) :
    exec (.ldb d p o) s = .next (s.writeResult (.ldb d p o) d (zext16 b)) := by
  simp only [exec, execLdb, h, if_true, memRead_of_some hb, State.writeResult]

/-- R206, R55: a byte never written is loaded as a draw, which is counted. -/
theorem exec_ldb_of_unwritten
    (h : s.allocated (effectiveAddress (s.value p) (s.value o)) = true)
    (hb : s.arenaByte (effectiveAddress (s.value p) (s.value o)) = none) : exec (.ldb d p o) s =
      .next (State.writeResult (.ldb d p o) d
        (zext16 (Config.freeByte s.draws (effectiveAddress (s.value p) (s.value o))))
        { s with draws := s.draws + 1 }) := by
  simp only [exec, execLdb, h, if_true, memRead_of_none hb, State.writeResult]

theorem exec_ldb_of_not_allocated
    (h : s.allocated (effectiveAddress (s.value p) (s.value o)) = false) :
    exec (.ldb d p o) s = .next (s.raise .memoryNotAllocated s.pc) :=
  if_neg (Bool.not_eq_true _ ▸ h)

end Ldb

theorem withDraws_frame (s : State) (n : Nat) :
    UnchangedExcept [.draws] s { s with draws := n } := by
  constructor
  case draws => simp
  all_goals intros; rfl

/-- Settles O46: the byte is the one written there, or a draw. -/
theorem ldbLoadsOneAllocatedByte : Obligations.LdbLoadsOneAllocatedByte := by
  refine fun s d p o => ⟨layout_dest_two_sources rfl rfl, fun b hmarked hb => ?_,
    fun hmarked hb => ?_, fun hclear => ?_⟩
  · exact writesRegister_of_exec (exec_ldb_of_written hmarked hb) (uint_zext16 b)
  · refine ⟨_, exec_ldb_of_unwritten hmarked hb, ?_, fun r hr => ?_, rfl, ?_, ?_⟩
    · rw [State.writeResult, reg_past, reg_setReg_self, uint_zext16]
    · rw [State.writeResult, reg_past, reg_setReg_ne _ hr]
      rfl
    · exact pc_past_of_pc_eq rfl _
    · exact (((withDraws_frame s _).trans (setReg_frame _ d _)).trans
        (past_frame _ (.ldb d p o))).mono (by simp)
  · exact ⟨_, exec_ldb_of_not_allocated hclear, faultTaken_raise _ s⟩

end Sys2Proof.Machine

/-! SUPPORT. PIX and CLS (45_display.md R220-R222), and the pixel buffers as write-only memory
(20_memory.md R50): every operation an instruction but SYS is made of commutes with a change of
their contents. -/

namespace Sys2Proof.Machine

/-! ## Frames -/

theorem setBuffer_frame (s : State) (n : Fin 2) (m : Memory) :
    UnchangedExcept [.pixels] s (s.setBuffer n m) := by
  constructor
  case pixels => simp
  all_goals intros; rfl

/-! ## PIX (R220, R221) -/

section Pix

variable {s : State} {x y c : Operand}

theorem exec_pix_of_inside (h : pixelInBounds s.cfg (s.value x) (s.value y) = true) :
    exec (.pix x y c) s = .next
      ((s.setPixel s.abuf (pixelIndex s.cfg (s.value x) (s.value y)) (trunc8 (s.value c))).past
        (.pix x y c)) := if_pos h

theorem exec_pix_of_outside (h : pixelInBounds s.cfg (s.value x) (s.value y) = false) :
    exec (.pix x y c) s = .next (s.raise .pixelOutOfBounds s.pc) :=
  if_neg (Bool.not_eq_true _ ▸ h)

end Pix

theorem pixelInBounds_iff (cfg : Config) (x y : Word) : pixelInBounds cfg x y = true ↔
    (0 ≤ sint x ∧ sint x < cfg.displayW) ∧ (0 ≤ sint y ∧ sint y < cfg.displayH) := by
  rw [pixelInBounds, decide_eq_true_eq, and_assoc]

/-- R221: the row-major index, in unsigned terms. -/
theorem pixelIndex_eq {cfg : Config} {x y : Word} (hx : 0 ≤ sint x) (hy : 0 ≤ sint y) :
    pixelIndex cfg x y = uint y * cfg.displayW + uint x := by
  rw [pixelIndex, sint_of_nonneg hx, sint_of_nonneg hy]
  exact Int.toNat_natCast _

/-- Settles O47: the index is row-major, so its quotient and remainder by the width are row and
column. -/
theorem pixWritesOnePixel : Obligations.PixWritesOnePixel := by
  refine fun s x y c => ⟨layout_three_sources rfl rfl, fun _ hx hxW hy hyH => ?_⟩
  have hinside := (pixelInBounds_iff s.cfg _ _).2 ⟨⟨hx, hxW⟩, ⟨hy, hyH⟩⟩
  have hindex := pixelIndex_eq (cfg := s.cfg) hx hy
  have hcolumn : uint (s.value x) < s.cfg.displayW := by
    rw [sint_of_nonneg hx] at hxW
    exact_mod_cast hxW
  refine ⟨_, _, _, exec_pix_of_inside hinside, hindex, pixelIndex_lt hinside, ?_, ?_,
    toNat_trunc8 _, ?_, fun n j hnj => ?_, ?_,
    ((setBuffer_frame s _ _).trans (past_frame _ (.pix x y c))).mono (by simp)⟩
  · rw [hindex, Nat.mul_add_mod_of_lt hcolumn]
  · rw [hindex, Nat.mul_comm, Nat.mul_add_div (by omega), Nat.div_eq_of_lt hcolumn, Nat.add_zero]
  · exact (pixel_setPixel s _ _ _ _ _).trans (if_pos ⟨rfl, rfl⟩)
  · exact (pixel_setPixel s _ n _ j _).trans (if_neg fun h => hnj (Prod.ext h.1 h.2))
  · exact pc_past_of_pc_eq rfl _

/-- Settles O48: outside is the negation of `pixelInBounds_iff`. -/
theorem pixOutsideFaults : Obligations.PixOutsideFaults := by
  intro s x y c houtside
  have hbounds : pixelInBounds s.cfg (s.value x) (s.value y) = false := by
    rw [← Bool.not_eq_true, pixelInBounds_iff]
    omega
  exact ⟨_, exec_pix_of_outside hbounds, faultTaken_raise _ s⟩

/-! ## CLS (R222) -/

theorem exec_cls (c : Operand) (s : State) :
    exec (.cls c) s = .next ((s.pixFill (trunc8 (s.value c))).past (.cls c)) := rfl

/-- After a fill the active buffer holds the colour below `W·H`, and the other buffer is as it
was. -/
theorem pixel_pixFill (s : State) (c : Byte) (n : Fin 2) (i : Nat) : (s.pixFill c).pixel n i =
    if n = s.abuf then (if i < s.cfg.pixels then some c else none) else s.pixel n i := by
  rw [State.pixFill, pixel_setBuffer, read_fill]

/-- Settles O49: the filled buffer reads as `pixel_pixFill` says. -/
theorem clsFillsTheActiveBuffer : Obligations.ClsFillsTheActiveBuffer := by
  refine fun s c => ⟨layout_one_source rfl rfl, _, _, exec_cls c s, toNat_trunc8 _, fun i hi => ?_,
    fun i hi => ?_, fun n i hn => ?_, ?_,
    ((setBuffer_frame s _ _).trans (past_frame _ (.cls c))).mono (by simp)⟩
  · exact (pixel_pixFill s _ _ i).trans ((if_pos rfl).trans (if_pos hi))
  · exact (pixel_pixFill s _ _ i).trans ((if_pos rfl).trans (if_neg (Nat.not_lt.2 hi)))
  · exact (pixel_pixFill s _ n i).trans (if_neg hn)
  · exact pc_past_of_pc_eq rfl _

/-! ## Other contents of the buffers -/

/-- The state with other contents in both pixel buffers. -/
def State.withBuffers (q : Vector Memory 2) (s : State) : State := { s with pbuf := q }

section Commute

variable (q : Vector Memory 2) (s : State)

@[simp] theorem value_withBuffers (a : Operand) : (s.withBuffers q).value a = s.value a :=
  value_congr rfl a

/-- A jump reads the flags and an operand only. -/
theorem jump_withBuffers (i : Instr) (a : Operand) (b : Bool) :
    (s.withBuffers q).jump i a b = (s.jump i a b).withBuffers q := by
  cases b with
  | false => rfl
  | true =>
    simp only [State.jump, if_true, value_withBuffers]
    rfl

/-- The link rule reads the call stack and an operand only. -/
theorem branchLink_withBuffers (i : Instr) (a : Operand) (b : Bool) :
    (s.withBuffers q).branchLink i a b = (s.branchLink i a b).withBuffers q := by
  cases b with
  | false => rfl
  | true =>
    by_cases hfull : s.cs.length = callDepth
    · rw [branchLink_of_full hfull, branchLink_of_full (s := s.withBuffers q) hfull]
      rfl
    · rw [branchLink_of_room hfull, branchLink_of_room (s := s.withBuffers q) hfull,
        value_withBuffers]
      rfl

end Commute

/-- An instruction but SYS does the same to every other part of the state, whatever the buffers
hold. -/
theorem exec_withBuffers {i : Instr} {s t : State} (q : Vector Memory 2) (hi : i.mnemonic ≠ .sys)
    (hexec : exec i s = .next t) :
    ∃ q', exec i (s.withBuffers q) = .next (t.withBuffers q') := by
  cases i with
  | sys k => exact absurd rfl hi
  | nop | mov d a | add d a b | sub d a b | mul d a b | cmp a b =>
    cases hexec
    exact ⟨q, rfl⟩
  | jmp a | jeq a | jne a | jlt a | jgt a =>
    cases hexec
    exact ⟨q, congrArg _ (jump_withBuffers q s _ a _)⟩
  | bra a | beq a | bne a | blt a | bgt a =>
    cases hexec
    exact ⟨q, congrArg _ (branchLink_withBuffers q s _ a _)⟩
  | div d a b =>
    by_cases hzero : uint (s.value b) = 0
    · cases (exec_div_of_zero hzero).symm.trans hexec
      exact ⟨q, exec_div_of_zero (s := s.withBuffers q) hzero⟩
    · cases (exec_div_of_ne_zero hzero).symm.trans hexec
      exact ⟨q, exec_div_of_ne_zero (s := s.withBuffers q) hzero⟩
  | ret =>
    obtain hempty | ⟨below, v, hcs⟩ := List.eq_nil_or_concat' s.cs
    · cases (exec_ret_of_empty hempty).symm.trans hexec
      exact ⟨q, exec_ret_of_empty (s := s.withBuffers q) hempty⟩
    · cases (exec_ret_of_append hcs).symm.trans hexec
      exact ⟨q, exec_ret_of_append (s := s.withBuffers q) hcs⟩
  | alc d n =>
    by_cases hn : uint (s.value n) = 0
    · cases (exec_alc_of_zero hn).symm.trans hexec
      exact ⟨q, exec_alc_of_zero (s := s.withBuffers q) hn⟩
    · by_cases hfree : ∃ p, FreeRun s p (uint (s.value n))
      · obtain ⟨p, hfit⟩ := firstFit_isSome hfree
        cases (exec_alc_of_fit rfl hn hfit).symm.trans hexec
        exact ⟨q, exec_alc_of_fit (s := s.withBuffers q) rfl hn hfit⟩
      · cases (exec_alc_of_no_fit rfl hn hfree).symm.trans hexec
        exact ⟨q, exec_alc_of_no_fit (s := s.withBuffers q) rfl hn hfree⟩
  | fre p =>
    cases hlive : keyGet s.stab (uint (s.value p)) with
    | none =>
      cases (exec_fre_of_none rfl hlive).symm.trans hexec
      exact ⟨q, exec_fre_of_none (s := s.withBuffers q) rfl hlive⟩
    | some n =>
      cases (exec_fre_of_live rfl hlive).symm.trans hexec
      exact ⟨q, exec_fre_of_live (s := s.withBuffers q) rfl hlive⟩
  | stb p o v =>
    cases hmarked : s.allocated (effectiveAddress (s.value p) (s.value o)) with
    | true =>
      cases (exec_stb_of_allocated hmarked).symm.trans hexec
      exact ⟨q, exec_stb_of_allocated (s := s.withBuffers q) hmarked⟩
    | false =>
      cases (exec_stb_of_not_allocated hmarked).symm.trans hexec
      exact ⟨q, exec_stb_of_not_allocated (s := s.withBuffers q) hmarked⟩
  | ldb d p o =>
    cases hmarked : s.allocated (effectiveAddress (s.value p) (s.value o)) with
    | true =>
      cases hb : s.arenaByte (effectiveAddress (s.value p) (s.value o)) with
      | some b =>
        cases (exec_ldb_of_written hmarked hb).symm.trans hexec
        exact ⟨q, exec_ldb_of_written (s := s.withBuffers q) hmarked hb⟩
      | none =>
        cases (exec_ldb_of_unwritten hmarked hb).symm.trans hexec
        exact ⟨q, exec_ldb_of_unwritten (s := s.withBuffers q) hmarked hb⟩
    | false =>
      cases (exec_ldb_of_not_allocated hmarked).symm.trans hexec
      exact ⟨q, exec_ldb_of_not_allocated (s := s.withBuffers q) hmarked⟩
  | pix x y c =>
    cases hinside : pixelInBounds s.cfg (s.value x) (s.value y) with
    | true =>
      cases (exec_pix_of_inside hinside).symm.trans hexec
      exact ⟨_, exec_pix_of_inside (s := s.withBuffers q) hinside⟩
    | false =>
      cases (exec_pix_of_outside hinside).symm.trans hexec
      exact ⟨q, exec_pix_of_outside (s := s.withBuffers q) hinside⟩
  | cls c =>
    cases hexec
    exact ⟨_, exec_cls c (s.withBuffers q)⟩

/-- Settles O52: the two next states differ in the buffers at most. -/
theorem pixelBuffersAreWriteOnly : Obligations.PixelBuffersAreWriteOnly := by
  intro i s t q hi hexec
  obtain ⟨q', hq'⟩ := exec_withBuffers q hi hexec
  exact ⟨t.withBuffers q', hq', rfl⟩

end Sys2Proof.Machine

/-! SUPPORT. The assembler (30_encoding.md section 4): what a token with a decimal value emits, and
that the offsets pass 1 counts are numbers of bytes pass 2 emits. -/

namespace Sys2Proof.Machine

/-! ## Tokens with a value (R104-R106) -/

section Tokens

variable {cfg : Config} {strict : Bool} {t v : Text} {n : Int}

/-- R104: an immediate in range is three bytes in either mode. -/
theorem immediateToken_of_range (hv : decimalValue v = some n) (hlow : -32768 ≤ n)
    (hhigh : n ≤ 65535) :
    immediateToken cfg strict t v = .ok (.bytes ((Operand.imm16 (wrap16 n)).bytes cfg)) := by
  simp only [immediateToken, hv, hlow, hhigh, and_self, decide_true, Bool.not_true, Bool.and_false,
    Bool.false_eq_true, if_false]
  rfl

/-- R106: a register index in range is two bytes in either mode. -/
theorem registerToken_of_range (hv : decimalValue v = some n) (i : RegIdx)
    (hi : (i.val : Int) = n) :
    registerToken cfg strict t v = .ok (.bytes ((Operand.reg i).bytes cfg)) := by
  have hlt := i.isLt
  have hrange : 0 ≤ n ∧ n ≤ 15 := by omega
  simp only [registerToken, hv, hrange, and_self, decide_true, Bool.not_true, Bool.and_false,
    Bool.false_eq_true, if_false]
  rw [← hi, BitVec.ofInt_natCast]
  rfl

/-- R105: the operand of a byte: the immediate-short form where a literal would be a tag. -/
def byteOperand (cfg : Config) (b : Byte) : Operand :=
  if b = cfg.tagReg ∨ b = cfg.tagImm16 then .imm16 (zext16 b) else .lit b

theorem byteToken_of_value (hv : decimalValue v = some n) : byteToken cfg strict t v =
    .ok (.bytes ((byteOperand cfg (BitVec.ofInt 8 n)).bytes cfg)) := by
  simp only [byteToken, hv, byteOperand]
  split <;> rfl

theorem byteOperand_wf (cfg : Config) (b : Byte) : (byteOperand cfg b).wf cfg = true := by
  unfold byteOperand
  split
  · rfl
  · simp_all [Operand.wf]

/-- Either form has the byte, zero-extended, as its value. -/
theorem uint_value_byteOperand (s : State) (b : Byte) :
    uint (s.value (byteOperand cfg b)) = b.toNat := by
  unfold byteOperand
  split <;> exact uint_zext16 b

end Tokens

/-- Settles O58: each token emits the bytes of a well-formed operand, which read back as it. -/
theorem assembledOperandsHaveTheirValues : Obligations.AssembledOperandsHaveTheirValues := by
  rintro cfg s strict names v n rest ⟨-, htag, -⟩ hv
  refine ⟨fun hname hlow hhigh => ?_, fun hname => ?_, fun hname hlow hhigh => ?_⟩
  · exact ⟨_, wrap16 n, (itemOfToken_immediate hname).trans (immediateToken_of_range hv hlow hhigh),
      readOperand_bytes htag (a := .imm16 (wrap16 n)) rfl rest, uint_wrap16 n⟩
  · refine ⟨_, _, (itemOfToken_byte hname).trans (byteToken_of_value hv),
      readOperand_bytes htag (byteOperand_wf cfg _) rest, ?_⟩
    rw [uint_value_byteOperand, BitVec.toNat_ofInt]
    omega
  · obtain ⟨k, rfl⟩ := Int.eq_ofNat_of_zero_le hlow
    have hk : k < 16 := by omega
    exact ⟨_, ⟨k, hk⟩, (itemOfToken_register hname).trans (registerToken_of_range hv ⟨k, hk⟩ rfl),
      readOperand_bytes htag (a := .reg ⟨k, hk⟩) rfl rest, rfl⟩

/-! ## Pass 1 and pass 2 (R110) -/

/-- What pass 2 emits for a list of items that begins with `i` is the bytes of `i`, as many as its
size says, and what it emits for the rest. -/
theorem emit_cons_eq_ok {cfg : Config} {table : List (Text × Nat)} {i : AsmItem}
    {is : List AsmItem} {out : List Byte} (h : emit cfg table (i :: is) = .ok out) :
    ∃ bs out', emit cfg table is = .ok out' ∧ bs.length = i.size ∧ out = bs ++ out' := by
  cases i with
  | label name => exact ⟨[], out, h, rfl, rfl⟩
  | bytes bs =>
    rw [emit] at h
    split at h
    · cases h
    · rename_i out' hrest
      cases h
      exact ⟨bs, out', hrest, rfl, rfl⟩
  | ref name =>
    rw [emit] at h
    split at h
    · cases h
    · split at h
      · cases h
      · rename_i v _ out' hrest
        cases h
        exact ⟨_, out', hrest, rfl, rfl⟩

/-- What pass 1 lists after an item, it lists with it, at an offset the item's size further on. -/
theorem labelTable_cons_subset (off : Nat) (i : AsmItem) (is : List AsmItem) :
    labelTable (off + i.size) is ⊆ labelTable off (i :: is) := by
  cases i with
  | label name => exact List.subset_cons_self _ _
  | bytes bs | ref name => exact List.Subset.refl _

theorem mem_labelTable_of_emit {cfg : Config} {table : List (Text × Nat)} {before : List AsmItem}
    (after : List AsmItem) (name : Text) {off : Nat} {out : List Byte}
    (h : emit cfg table before = .ok out) :
    (name, off + out.length) ∈ labelTable off (before ++ .label name :: after) := by
  induction before generalizing off out with
  | nil =>
    cases h
    exact List.mem_cons_self
  | cons i is ih =>
    obtain ⟨bs, out', hrest, hsize, rfl⟩ := emit_cons_eq_ok h
    rw [List.length_append, hsize, ← Nat.add_assoc]
    exact labelTable_cons_subset off i _ (ih hrest)

/-- Settles O59: by induction on the items before the label. -/
theorem labelValueIsItsByteOffset : Obligations.LabelValueIsItsByteOffset := by
  intro cfg table before after name out h
  simpa using mem_labelTable_of_emit after name (off := 0) h

end Sys2Proof.Machine
